-- ==== Sys2Proof/Word.lean ====
section
/-! DEFINITION. The word types of BFX (00_scope.md R9, R12). -/

namespace Sys2Proof

/-- One byte of the buffer (10_state.md R31). -/
abbrev Byte := BitVec 8

/-- A command word `CMD` (10_state.md R33, 30_encoding.md R90). -/
abbrev CmdWord := BitVec 16

/-- The data path: `RDATA`, `WDATA` and `val64` (10_state.md R33 and R34). -/
abbrev Word64 := BitVec 64

/-- The accumulator, mask and shifted value: `bits128` (00_scope.md R12, `ACC_W`). -/
abbrev AccWord := BitVec 128

end Sys2Proof
end

