-- ==== Sys2Proof/Config.lean ====
section
/-! DEFINITION. The parameters of 00_scope.md R9: those the source fixes, and the launch parameters that a state carries. -/

namespace Sys2Proof

/-- `I32_EXT`, the extension of a signed 32-bit write value to 64 bits: an OPEN parameter
(00_scope.md R9, 92_eei_decisions.md D13). -/
inductive I32Ext where
  | sign
  | zero
deriving DecidableEq, Repr

/-- The parameters a launch fixes and no command changes (10_state.md R44, 00_scope.md R9). -/
structure Params where
  /-- `LEN`, the buffer length in bytes; 0 is allowed. -/
  len : Nat
  /-- `IDX_W`, the width of the `SIDX` and `EIDX` ports. -/
  idxW : Nat
  /-- `I32_EXT`. -/
  i32Ext : I32Ext
deriving DecidableEq, Repr

namespace Config

/-- `MAX_FIELD`, the largest field width (00_scope.md R9). -/
abbrev maxField : Int := 64

/-- `UNB_START`, the absolute start bit of an unbounded start (00_scope.md R9). -/
abbrev unbStart : Int := 0

/-- `UNB_END`, the absolute end bit of an unbounded end (00_scope.md R9, 40_range_resolver.md R123). -/
abbrev unbEnd : Int := 63

/-- The number of addressable bits of a buffer byte. -/
abbrev byteBits : Nat := 8

end Config

end Sys2Proof
end

