-- ==== Sys2Proof/Syntax.lean ====
section
/-! DEFINITION. The 18 commands of the opcode table as one inductive type (30_encoding.md R99), the bounds of a
range, and the operand words of a command transaction (10_state.md R33). -/

namespace Sys2Proof

/-- `CMD.OP` (30_encoding.md R92). -/
inductive Op where
  | read
  | write
deriving DecidableEq, Repr

/-- Directionality, `CMD.END` (30_encoding.md R93). -/
inductive Endian where
  | little
  | big
deriving DecidableEq, Repr

/-- `CMD.WIDTH` (30_encoding.md R94). -/
inductive Width where
  | u8
  | u16
  | u32
  | u64
  | i32
deriving DecidableEq, Repr

/-- One end of a range (00_scope.md R17; 30_encoding.md R95, R96). The index of an unbounded end is ignored, so
it is not kept. -/
inductive Bound where
  | included (idx : Nat)
  | excluded (idx : Nat)
  | unbounded
deriving DecidableEq, Repr

/-- The commands, one constructor per row of the opcode table (30_encoding.md R99). -/
inductive Instr where
  | rdleU8 (start stop : Bound)
  | rdleU16 (start stop : Bound)
  | rdleU32 (start stop : Bound)
  | rdleU64 (start stop : Bound)
  | rdbeU8 (start stop : Bound)
  | rdbeU16 (start stop : Bound)
  | rdbeU32 (start stop : Bound)
  | rdbeU64 (start stop : Bound)
  | wrleU8 (start stop : Bound) (wdata : Word64)
  | wrleU16 (start stop : Bound) (wdata : Word64)
  | wrleU32 (start stop : Bound) (wdata : Word64)
  | wrleU64 (start stop : Bound) (wdata : Word64)
  | wrleI32 (start stop : Bound) (wdata : Word64)
  | wrbeU8 (start stop : Bound) (wdata : Word64)
  | wrbeU16 (start stop : Bound) (wdata : Word64)
  | wrbeU32 (start stop : Bound) (wdata : Word64)
  | wrbeU64 (start stop : Bound) (wdata : Word64)
  | wrbeI32 (start stop : Bound) (wdata : Word64)
deriving DecidableEq, Repr

/-- What the host drives on the command port when it issues one command (10_state.md R33). The indices are the
values on `IDX_W`-bit ports. -/
structure Transaction where
  cmd : CmdWord
  sidx : Nat
  eidx : Nat
  wdata : Word64
deriving DecidableEq, Repr

/-- A command seen as its independent choices (30_encoding.md R91): the row, the range and the value. -/
structure Shape where
  op : Op
  endian : Endian
  width : Width
  start : Bound
  stop : Bound
  /-- The value word; 0 for a read, which ignores `WDATA` (92_eei_decisions.md D28). -/
  wdata : Word64
deriving DecidableEq, Repr

/-- The row of each command (30_encoding.md R99). -/
def Instr.shape : Instr → Shape
  | .rdleU8 start stop => ⟨.read, .little, .u8, start, stop, 0⟩
  | .rdleU16 start stop => ⟨.read, .little, .u16, start, stop, 0⟩
  | .rdleU32 start stop => ⟨.read, .little, .u32, start, stop, 0⟩
  | .rdleU64 start stop => ⟨.read, .little, .u64, start, stop, 0⟩
  | .rdbeU8 start stop => ⟨.read, .big, .u8, start, stop, 0⟩
  | .rdbeU16 start stop => ⟨.read, .big, .u16, start, stop, 0⟩
  | .rdbeU32 start stop => ⟨.read, .big, .u32, start, stop, 0⟩
  | .rdbeU64 start stop => ⟨.read, .big, .u64, start, stop, 0⟩
  | .wrleU8 start stop wdata => ⟨.write, .little, .u8, start, stop, wdata⟩
  | .wrleU16 start stop wdata => ⟨.write, .little, .u16, start, stop, wdata⟩
  | .wrleU32 start stop wdata => ⟨.write, .little, .u32, start, stop, wdata⟩
  | .wrleU64 start stop wdata => ⟨.write, .little, .u64, start, stop, wdata⟩
  | .wrleI32 start stop wdata => ⟨.write, .little, .i32, start, stop, wdata⟩
  | .wrbeU8 start stop wdata => ⟨.write, .big, .u8, start, stop, wdata⟩
  | .wrbeU16 start stop wdata => ⟨.write, .big, .u16, start, stop, wdata⟩
  | .wrbeU32 start stop wdata => ⟨.write, .big, .u32, start, stop, wdata⟩
  | .wrbeU64 start stop wdata => ⟨.write, .big, .u64, start, stop, wdata⟩
  | .wrbeI32 start stop wdata => ⟨.write, .big, .i32, start, stop, wdata⟩

end Sys2Proof
end

