-- ==== Sys2Proof/WellFormed.lean ====
section
/-! DEFINITION. Which commands can stand on the command port: the indices fit `IDX_W` bits (00_scope.md R10,
30_encoding.md R97). Every value word is well formed. -/

namespace Sys2Proof

/-- The index of a bound fits an `IDX_W`-bit port: `0 ≤ idx < 2^IDX_W` (00_scope.md R10). -/
def Bound.fits (idxW : Nat) : Bound → Bool
  | .included idx => decide (idx < 2 ^ idxW)
  | .excluded idx => decide (idx < 2 ^ idxW)
  | .unbounded => true

/-- A well-formed command: both indices fit their ports (00_scope.md R10). -/
def Instr.wf (p : Params) (i : Instr) : Bool :=
  i.shape.start.fits p.idxW && i.shape.stop.fits p.idxW

end Sys2Proof
end

