-- ==== Sys2Proof/Decode.lean ====
section
/-! DEFINITION. The decoder of a command transaction (30_encoding.md R90 to R100), total and rejecting by name, and
after it the encoder, written from the same field tables. -/

namespace Sys2Proof

/-- Why a `CMD` word is illegal: the five cases of 30_encoding.md R100. Every one raises ILLEGAL_COMMAND. -/
inductive Illegal where
  /-- (a) `CMD.RSVD ≠ 0`. -/
  | reservedBits
  /-- (b) `CMD.WIDTH` is 101, 110 or 111. -/
  | reservedWidth
  /-- (c) a read with `CMD.WIDTH = I32`. -/
  | readSigned
  /-- (d) `CMD.SKIND = 11`. -/
  | reservedStartKind
  /-- (e) `CMD.EKIND = 11`. -/
  | reservedEndKind
deriving DecidableEq, Repr

/-- `CMD.OP`, bit 0 (30_encoding.md R91, R92). -/
def fieldOp (cmd : CmdWord) : Op := if cmd.getLsbD 0 then .write else .read

/-- `CMD.END`, bit 1 (30_encoding.md R91, R93). -/
def fieldEnd (cmd : CmdWord) : Endian := if cmd.getLsbD 1 then .big else .little

/-- `CMD.WIDTH`, bits 4:2 (30_encoding.md R91). -/
def fieldWidth (cmd : CmdWord) : BitVec 3 := cmd.extractLsb' 2 3

/-- `CMD.SKIND`, bits 6:5 (30_encoding.md R91). -/
def fieldSkind (cmd : CmdWord) : BitVec 2 := cmd.extractLsb' 5 2

/-- `CMD.EKIND`, bits 8:7 (30_encoding.md R91). -/
def fieldEkind (cmd : CmdWord) : BitVec 2 := cmd.extractLsb' 7 2

/-- `CMD.RSVD`, bits 15:9 (30_encoding.md R91). -/
def fieldRsvd (cmd : CmdWord) : BitVec 7 := cmd.extractLsb' 9 7

/-- The `CMD.WIDTH` codes (30_encoding.md R94); `none` for the reserved ones. -/
def decodeWidth (code : BitVec 3) : Option Width :=
  match code.toNat with
  | 0 => some .u8
  | 1 => some .u16
  | 2 => some .u32
  | 3 => some .u64
  | 4 => some .i32
  | _ => none

/-- A bound from its kind and index (30_encoding.md R95, R96); `none` for the reserved kind 11. -/
def decodeBound (kind : BitVec 2) (idx : Nat) : Option Bound :=
  match kind.toNat with
  | 0 => some (.included idx)
  | 1 => some (.excluded idx)
  | 2 => some .unbounded
  | _ => none

/-- The read row of a directionality and a width (30_encoding.md R99); a read has no signed width (R100 (c)). -/
def readRow (e : Endian) (w : Width) (start stop : Bound) : Option Instr :=
  match e, w with
  | .little, .u8 => some (.rdleU8 start stop)
  | .little, .u16 => some (.rdleU16 start stop)
  | .little, .u32 => some (.rdleU32 start stop)
  | .little, .u64 => some (.rdleU64 start stop)
  | .big, .u8 => some (.rdbeU8 start stop)
  | .big, .u16 => some (.rdbeU16 start stop)
  | .big, .u32 => some (.rdbeU32 start stop)
  | .big, .u64 => some (.rdbeU64 start stop)
  | .little, .i32 => none
  | .big, .i32 => none

/-- The write row of a directionality and a width (30_encoding.md R99). -/
def writeRow (e : Endian) (w : Width) (start stop : Bound) (wdata : Word64) : Instr :=
  match e, w with
  | .little, .u8 => .wrleU8 start stop wdata
  | .little, .u16 => .wrleU16 start stop wdata
  | .little, .u32 => .wrleU32 start stop wdata
  | .little, .u64 => .wrleU64 start stop wdata
  | .little, .i32 => .wrleI32 start stop wdata
  | .big, .u8 => .wrbeU8 start stop wdata
  | .big, .u16 => .wrbeU16 start stop wdata
  | .big, .u32 => .wrbeU32 start stop wdata
  | .big, .u64 => .wrbeU64 start stop wdata
  | .big, .i32 => .wrbeI32 start stop wdata

/-- The command of a row with its operands; a read ignores the value word (30_encoding.md R98). -/
def rowOf (op : Op) (e : Endian) (w : Width) (start stop : Bound) (wdata : Word64) : Except Illegal Instr :=
  match op with
  | .write => .ok (writeRow e w start stop wdata)
  | .read =>
    match readRow e w start stop with
    | some i => .ok i
    | none => .error .readSigned

/-- Decode a command transaction: the row of 30_encoding.md R99 with its bounds, or one of the five illegal cases
of R100. Total on every transaction (R101). -/
def decode (t : Transaction) : Except Illegal Instr :=
  if fieldRsvd t.cmd ≠ 0 then .error .reservedBits
  else
    match decodeWidth (fieldWidth t.cmd) with
    | none => .error .reservedWidth
    | some w =>
      match decodeBound (fieldSkind t.cmd) t.sidx with
      | none => .error .reservedStartKind
      | some start =>
        match decodeBound (fieldEkind t.cmd) t.eidx with
        | none => .error .reservedEndKind
        | some stop => rowOf (fieldOp t.cmd) (fieldEnd t.cmd) w start stop t.wdata

/-- `CMD.OP` as written in a word (30_encoding.md R92). -/
def Op.code : Op → Nat
  | .read => 0
  | .write => 1

/-- `CMD.END` as written in a word (30_encoding.md R93). -/
def Endian.code : Endian → Nat
  | .little => 0
  | .big => 1

/-- `CMD.WIDTH` as written in a word (30_encoding.md R94). -/
def Width.code : Width → Nat
  | .u8 => 0
  | .u16 => 1
  | .u32 => 2
  | .u64 => 3
  | .i32 => 4

/-- `CMD.SKIND` or `CMD.EKIND` as written in a word (30_encoding.md R95, R96). -/
def Bound.kind : Bound → Nat
  | .included _ => 0
  | .excluded _ => 1
  | .unbounded => 2

/-- The index of a bound; an ignored index is written 0 (30_encoding.md R102). -/
def Bound.index : Bound → Nat
  | .included idx => idx
  | .excluded idx => idx
  | .unbounded => 0

/-- The selecting bits of a row, `CMD & 0xFE1F` (30_encoding.md R99). -/
def Instr.matchWord (i : Instr) : CmdWord :=
  BitVec.ofNat 16 (i.shape.op.code + i.shape.endian.code * 2 + i.shape.width.code * 4)

/-- The `CMD` word: `match | (SKIND << 5) | (EKIND << 7)` (30_encoding.md R99). -/
def Instr.cmdWord (i : Instr) : CmdWord :=
  i.matchWord ||| (BitVec.ofNat 16 i.shape.start.kind <<< 5) ||| (BitVec.ofNat 16 i.shape.stop.kind <<< 7)

/-- Encode a command as the words of its transaction (30_encoding.md R99, R102); ignored operands are 0. -/
def encode (i : Instr) : Transaction :=
  { cmd := i.cmdWord, sidx := i.shape.start.index, eidx := i.shape.stop.index, wdata := i.shape.wdata }

/-- The transaction whose command word is the low 16 of the `nbits` bits `w`, with every operand port at 0. -/
def tableTransaction (nbits w : Nat) : Transaction :=
  { cmd := BitVec.ofNat 16 (w % 2 ^ nbits), sidx := 0, eidx := 0, wdata := 0 }

/-- What the decoder reads from a word of the opcode table, the operand ports at 0. -/
def decodeTableWord (nbits w : Nat) : Option Instr :=
  match decode (tableTransaction nbits w) with
  | .ok i => some i
  | .error _ => none

end Sys2Proof
end

