-- ==== Sys2Proof/Machine/State.lean ====
section
/-! DEFINITION. The machine's state (10_state.md), the reasons a step can stop, the state after reset and the state
of a launch. -/

namespace Sys2Proof.Machine

/-- The four fault causes of BFX (60_exceptions.md R230). -/
inductive Cause where
  | fieldTooWide
  | fieldEmpty
  | rangeOutsideBuffer
  | illegalCommand
deriving DecidableEq, Repr

/-- Reasons for which the machine has no next state though the spec describes the situation. The four fault CAUSES
of BFX are not among them: taking one is a next state (60_exceptions.md R237). -/
inductive Fault where
  /-- Raised by every command while `STATUS.FAULT = 1`: "the machine has no step for any command"
  (60_exceptions.md R238). Safe: it is the spec's own outcome. -/
  | halted
  /-- Raised by an access to a byte index at or above `LEN`, which does not exist (20_memory.md R76). No command
  reaches one (R73). Safe. -/
  | noSuchByte
deriving DecidableEq, Repr

/-- Reasons for which the model refuses to go on. -/
inductive Refusal where
  /-- Raised by `exec` for an instruction without a meaning; no arm raises it. Safe. -/
  | notModelled (mnemonic : String)
  /-- Raised by a read of a buffer byte the host never defined: "a model must not read one as 0"
  (70_reset_and_hazards.md R262, 93_implementation_defined.md U10). Safe. -/
  | undefinedByte
  /-- Raised when another agent accesses a byte of the running command's span (20_memory.md R78,
  93_implementation_defined.md U7). Safe. -/
  | race
  /-- Raised when the port carries an index that does not fit `IDX_W` bits (00_scope.md R10): no such port value
  exists. Safe. -/
  | indexTooWide
  /-- Raised when `STATUS.CAUSE` holds 5, 6 or 7, which BFX never writes (93_implementation_defined.md U9). Safe. -/
  | reservedCause
deriving DecidableEq, Repr

/-- The buffer as a sparse list of defined bytes, physical indices strictly rising. -/
abbrev Memory := List Host.Cell

/-- What an index that is not listed reads as: nothing, for the host never defined that byte
(70_reset_and_hazards.md R262). -/
def unlistedByte : Option Byte := none

/-- The canonical form: physical indices strictly rising. An unlisted byte has no value, so no entry can equal
what it reads as. -/
def Memory.wf : Memory → Bool
  | [] => true
  | [_] => true
  | c :: d :: m => decide (c.1 < d.1) && Memory.wf (d :: m)

/-- What the host does next on BFX's inputs. -/
inductive PortEvent where
  /-- The host issues a command (10_state.md R33, R39). `foreign` lists the physical indices that other agents
  access while the command runs (20_memory.md R78). It serves to find races on the span only; what another agent writes
  outside the span is not carried (DESIGN CHOICE, log entry 18). -/
  | command (t : Transaction) (foreign : List Nat)
  /-- The host asserts reset (70_reset_and_hazards.md R260). -/
  | reset
deriving DecidableEq, Repr

/-- BFX's state is `(BUF, RDATA, STATUS)` and nothing else (10_state.md R30). Beside it stand the launch parameters
(R44) and the host's actions still to come (R39), which the step reads. -/
structure State where
  /-- `LEN`, `IDX_W` and `I32_EXT` (10_state.md R44). -/
  params : Params
  /-- `BUF` (10_state.md R31). -/
  buf : Memory
  /-- `RDATA`; absent until a read completes (10_state.md R34). -/
  rdata : Option Word64
  /-- `STATUS` (10_state.md R35): FAULT bit 0, CAUSE bits 3:1, bits 7:4 hardwired to 0. -/
  status : BitVec 8
  /-- The model's own field: the host's actions, first the next one (10_state.md R39). -/
  port : List PortEvent
deriving DecidableEq, Repr

/-- The buffer whose byte `base + i` is the list's byte `i`. -/
def Memory.ofBytes (base : Nat) : List Byte → Memory
  | [] => []
  | b :: bytes => (base, b) :: Memory.ofBytes (base + 1) bytes

/-- The ready state of a launch (70_reset_and_hazards.md R262): the host has supplied `BUF` with these bytes and
fixed `IDX_W` and `I32_EXT`, and will do these actions. -/
def State.launch (bytes : List Byte) (idxW : Nat) (ext : I32Ext) (port : List PortEvent) : State :=
  { params := { len := bytes.length, idxW := idxW, i32Ext := ext }
    buf := Memory.ofBytes 0 bytes
    rdata := none
    status := 0
    port := port }

/-- The machine right after reset (10_state.md R45): `STATUS = 0x00`, `RDATA` absent. Reset does not touch `BUF`
and the parameters (70_reset_and_hazards.md R260). Here no launch has supplied them: an empty buffer, and the
recommended `IDX_W` and `I32_EXT` (DESIGN CHOICE, log entries 3, 4 and 5); no action waits (log entry 1). -/
def State.reset : State :=
  { params := { len := 0, idxW := 64, i32Ext := .sign }
    buf := []
    rdata := none
    status := 0
    port := [] }

/-- `RDATA` replaced. -/
def State.setRdata (v : Option Word64) (s : State) : State := { s with rdata := v }

/-- `STATUS` replaced. -/
def State.setStatus (v : BitVec 8) (s : State) : State := { s with status := v }

/-- `BUF` replaced. -/
def State.setBuf (m : Memory) (s : State) : State := { s with buf := m }

/-- The host's actions replaced. -/
def State.setPort (p : List PortEvent) (s : State) : State := { s with port := p }

end Sys2Proof.Machine
end

