-- ==== Sys2Proof/Machine/Flags.lean ====
section
/-! DEFINITION. The fields of `STATUS`. BFX has no condition flags (10_state.md R40): this register is its only
status, and only fault entry and reset change it (R35). -/

namespace Sys2Proof.Machine

/-- The cause codes (60_exceptions.md R230, 10_state.md R37). -/
def Cause.code : Cause → BitVec 3
  | .fieldTooWide => 1
  | .fieldEmpty => 2
  | .rangeOutsideBuffer => 3
  | .illegalCommand => 4

/-- `STATUS.FAULT`, bit 0 (10_state.md R36). -/
def State.faultBit (s : State) : Bool := s.status.getLsbD 0

/-- `STATUS.CAUSE`, bits 3:1 (10_state.md R37). -/
def State.causeField (s : State) : BitVec 3 := s.status.extractLsb' 1 3

/-- The register word with the given fields; bits 7:4 are hardwired to 0 (10_state.md R36 to R38). -/
def statusWord (fault : Bool) (cause : BitVec 3) : BitVec 8 :=
  (cause.setWidth 8 <<< 1) ||| (BitVec.ofBool fault).setWidth 8

/-- `STATUS.CAUSE` holds one of the reserved values 5 to 7 (10_state.md R37). -/
def State.causeReserved (s : State) : Bool := decide (5 ≤ s.causeField.toNat)

end Sys2Proof.Machine
end

