-- ==== Sys2Proof/Machine/Ops.lean ====
section
/-! DEFINITION. The named operations on the buffer and the registers; fault entry, the one way a command changes
`STATUS`, and reset, the one way out of a fault. -/

namespace Sys2Proof.Machine

/-- The outcome of a step of this machine. -/
abbrev Result := Host.Outcome State Fault Refusal

/-- Why an operation inside a command gives no next state. -/
inductive Stop where
  | fault (f : Fault)
  | refusal (r : Refusal)
deriving DecidableEq, Repr

/-- A stop as the outcome of the step. -/
def Stop.outcome : Stop → Result
  | .fault f => .fault f
  | .refusal r => .refused r

/-- The entry of an index, or what an unlisted index reads as. -/
def Memory.read : Memory → Nat → Option Byte
  | [], _ => unlistedByte
  | (a, b) :: m, i => if i = a then some b else Memory.read m i

/-- The buffer with byte `i` set to `v`, in canonical form. -/
def Memory.write : Memory → Nat → Byte → Memory
  | [], i, v => [(i, v)]
  | (a, b) :: m, i, v =>
    if i < a then (i, v) :: (a, b) :: m
    else if i = a then (i, v) :: m
    else (a, b) :: Memory.write m i v

/-- `BUF[i]`, the memory read of one byte (00_scope.md R14). It has no side effect (20_memory.md R74). -/
def readByte (s : State) (i : Nat) : Except Stop Byte :=
  if i < s.params.len then
    match s.buf.read i with
    | some b => .ok b
    | none => .error (.refusal .undefinedByte)
  else .error (.fault .noSuchByte)

/-- `BUF[i] <- b`, the memory write of one byte (00_scope.md R14). -/
def writeByte (s : State) (i : Nat) (b : Byte) : Except Stop State :=
  if i < s.params.len then .ok (s.setBuf (s.buf.write i b)) else .error (.fault .noSuchByte)

/-- `raise Fault(cause)`: `STATUS.FAULT <- 1`, `STATUS.CAUSE <- code(cause)`, and nothing else
(60_exceptions.md R237, R239). -/
def raiseFault (c : Cause) (s : State) : State := s.setStatus (statusWord true c.code)

/-- Reset: `STATUS <- 0x00` and `RDATA` absent; `BUF` and the parameters stay (70_reset_and_hazards.md R260). It is
the only way to clear `STATUS.FAULT`: BFX has no return from a fault (60_exceptions.md R238). -/
def assertReset (s : State) : State := (s.setStatus 0).setRdata none

/-- Whether BFX accepts a command (10_state.md R46): not while halted (60_exceptions.md R238). A reserved
`STATUS.CAUSE`, which BFX never writes, is refused (93_implementation_defined.md U9). -/
def acceptance (s : State) : Option Stop :=
  if s.causeReserved then some (.refusal .reservedCause)
  else if s.faultBit then some (.fault .halted)
  else none

end Sys2Proof.Machine
end

