-- ==== Sys2Proof/Machine/Operands.lean ====
section
/-! DEFINITION. The operands of a command: the bounds of the range as absolute bits (40_range_resolver.md R121,
R122), the views of the two directionalities (20_memory.md R63, R64), and the write value (30_encoding.md R98). -/

namespace Sys2Proof.Machine

/-- The absolute start bit of a start bound, an unbounded integer (40_range_resolver.md R121). -/
def absStart : Bound → Int
  | .included idx => (idx : Int)
  | .excluded idx => (idx : Int) + 1
  | .unbounded => Config.unbStart

/-- The absolute end bit (inclusive) of an end bound, an unbounded integer (40_range_resolver.md R122, R123). -/
def absEnd : Bound → Int
  | .included idx => (idx : Int)
  | .excluded idx => (idx : Int) - 1
  | .unbounded => Config.unbEnd

/-- `total_bits`, of the range before any clamping (40_range_resolver.md R124, R132). -/
def totalBits (start stop : Bound) : Int := absEnd stop - absStart start + 1

/-- The physical index of logical byte `k` in a buffer of `len` bytes (20_memory.md R63, R64). -/
def physIndex (e : Endian) (len k : Nat) : Nat :=
  match e with
  | .little => k
  | .big => len - 1 - k

/-- `V[k]` (00_scope.md R14); logical bytes at `LEN` and above do not exist (20_memory.md R62). -/
def readLogical (e : Endian) (s : State) (k : Nat) : Except Stop Byte :=
  if k < s.params.len then readByte s (physIndex e s.params.len k) else .error (.fault .noSuchByte)

/-- `V[k] <- b` (00_scope.md R14). -/
def writeLogical (e : Endian) (s : State) (k : Nat) (b : Byte) : Except Stop State :=
  if k < s.params.len then writeByte s (physIndex e s.params.len k) b else .error (.fault .noSuchByte)

/-- The output width of a read and the value width of a write, in bits (30_encoding.md R94). -/
def widthBits : Width → Nat
  | .u8 => 8
  | .u16 => 16
  | .u32 => 32
  | .u64 => 64
  | .i32 => 32

/-- `val64`, the 64-bit write value (30_encoding.md R98): bits above the value width are ignored, a signed value is
extended as `I32_EXT` says. -/
def writeValue (ext : I32Ext) (w : Width) (wdata : Word64) : Word64 :=
  match w with
  | .u8 => (wdata.setWidth 8).setWidth 64
  | .u16 => (wdata.setWidth 16).setWidth 64
  | .u32 => (wdata.setWidth 32).setWidth 64
  | .u64 => wdata
  | .i32 =>
    match ext with
    | .sign => (wdata.setWidth 32).signExtend 64
    | .zero => (wdata.setWidth 32).setWidth 64

end Sys2Proof.Machine
end

