-- ==== Sys2Proof/Machine/Resolver.lean ====
section
/-! DEFINITION. The range resolver (40_range_resolver.md), the first stage of every legal command. -/

namespace Sys2Proof.Machine

/-- The resolver's tuple (40_range_resolver.md R120); it exists only within one command (10_state.md R42). -/
structure Span where
  startBit : Nat
  totalBits : Nat
  startByte : Nat
  endByte : Nat
deriving DecidableEq, Repr

/-- The span length `n = end_byte - start_byte` (41_byte_assembler.md R140). -/
def Span.size (r : Span) : Nat := r.endByte - r.startByte

/-- The resolver, its checks in the spec's order (40_range_resolver.md R130). It does not depend on the
directionality (R120). Where neither width check fires, both absolute bits are at least 0. -/
def resolve (start stop : Bound) (len : Nat) : Except Cause Span :=
  if Config.maxField < totalBits start stop then .error .fieldTooWide
  else if totalBits start stop < 1 then .error .fieldEmpty
  else
    let first := (absStart start).toNat
    let last := (absEnd stop).toNat
    if len < first / Config.byteBits then .error .rangeOutsideBuffer
    else
      .ok { startBit := first % Config.byteBits
            totalBits := (totalBits start stop).toNat
            startByte := first / Config.byteBits
            endByte := min (last / Config.byteBits + 1) len }

/-- The physical indices of a span, in logical order (41_byte_assembler.md R144). -/
def spanIndices (e : Endian) (len : Nat) (r : Span) : List Nat :=
  (List.range r.size).map fun j => physIndex e len (r.startByte + j)

/-- Another agent accesses a byte of the span of command `i` while it runs: a race (20_memory.md R78). A command
that its range makes fault touches no byte, so it has no span. An access outside the span is no race here, a write
among them (DESIGN CHOICE, log entry 18). -/
def races (i : Instr) (len : Nat) (foreign : List Nat) : Bool :=
  match resolve i.shape.start i.shape.stop len with
  | .error _ => false
  | .ok r => (spanIndices i.shape.endian len r).any fun a => foreign.contains a

end Sys2Proof.Machine
end

