-- ==== Sys2Proof/Machine/Assembler.lean ====
section
/-! DEFINITION. The byte assembler and disassembler (41_byte_assembler.md). -/

namespace Sys2Proof.Machine

/-- Assembly of the first `n` bytes of a span that starts at logical byte `start` (41_byte_assembler.md R140): byte
`j` of the span enters the accumulator at bit `8*j`. -/
def assemble (e : Endian) (s : State) (start : Nat) : Nat → Except Stop AccWord
  | 0 => .ok 0
  | n + 1 =>
    match assemble e s start n with
    | .error stop => .error stop
    | .ok acc =>
      match readLogical e s (start + n) with
      | .error stop => .error stop
      | .ok b => .ok (acc ||| (b.setWidth 128 <<< (8 * n)))

/-- Disassembly into the first `n` bytes of a span that starts at logical byte `start` (41_byte_assembler.md R143):
byte `j` of the span takes bits `8*j+7 : 8*j`, and the bits above the span are discarded. -/
def disassemble (e : Endian) (s : State) (start : Nat) (acc : AccWord) : Nat → Except Stop State
  | 0 => .ok s
  | n + 1 =>
    match disassemble e s start acc n with
    | .error stop => .error stop
    | .ok t => writeLogical e t (start + n) (acc.extractLsb' (8 * n) 8)

end Sys2Proof.Machine
end

