-- ==== Sys2Proof/Machine/Read.lean ====
section
/-! DEFINITION. The read engine (42_read.md R160) and the eight read commands (R164 to R171). -/

namespace Sys2Proof.Machine

/-- `total_bits` ones, in 128 bits (42_read.md R161). -/
def onesMask (total : Nat) : AccWord := (1#128 <<< total) - 1#128

/-- The 64-bit field of an assembled accumulator: shift, mask, low 64 bits (42_read.md R160). -/
def fieldOf (r : Span) (acc : AccWord) : Word64 := ((acc >>> r.startBit) &&& onesMask r.totalBits).setWidth 64

/-- The read result: the low `w` bits of the field, zero-extended (42_read.md R162). -/
def readResult (w : Width) (r : Span) (acc : AccWord) : Word64 := ((fieldOf r acc).setWidth (widthBits w)).setWidth 64

/-- `ReadCmd(D, W)` (42_read.md R160): resolve, assemble, write `RDATA`. A resolver fault is taken
(60_exceptions.md R237). -/
def readCmd (e : Endian) (w : Width) (start stop : Bound) (s : State) : Result :=
  match acceptance s with
  | some why => why.outcome
  | none =>
    match resolve start stop s.params.len with
    | .error c => .next (raiseFault c s)
    | .ok r =>
      match assemble e s r.startByte r.size with
      | .error why => why.outcome
      | .ok acc => .next (s.setRdata (some (readResult w r acc)))

/-- RDLE.U8 (42_read.md R164). -/
def execRdleU8 (start stop : Bound) (s : State) : Result := readCmd .little .u8 start stop s

/-- RDLE.U16 (42_read.md R165). -/
def execRdleU16 (start stop : Bound) (s : State) : Result := readCmd .little .u16 start stop s

/-- RDLE.U32 (42_read.md R166). -/
def execRdleU32 (start stop : Bound) (s : State) : Result := readCmd .little .u32 start stop s

/-- RDLE.U64 (42_read.md R167). -/
def execRdleU64 (start stop : Bound) (s : State) : Result := readCmd .little .u64 start stop s

/-- RDBE.U8 (42_read.md R168). -/
def execRdbeU8 (start stop : Bound) (s : State) : Result := readCmd .big .u8 start stop s

/-- RDBE.U16 (42_read.md R169). -/
def execRdbeU16 (start stop : Bound) (s : State) : Result := readCmd .big .u16 start stop s

/-- RDBE.U32 (42_read.md R170). -/
def execRdbeU32 (start stop : Bound) (s : State) : Result := readCmd .big .u32 start stop s

/-- RDBE.U64 (42_read.md R171). -/
def execRdbeU64 (start stop : Bound) (s : State) : Result := readCmd .big .u64 start stop s

end Sys2Proof.Machine
end

