-- ==== Sys2Proof/Machine/Write.lean ====
section
/-! DEFINITION. The write engine (43_write.md R190) and the ten write commands (R195 to R204). -/

namespace Sys2Proof.Machine

/-- `mask = ((1 << total_bits) - 1) << start_bit`, in 128 bits (43_write.md R190, R191). -/
def writeMask (r : Span) : AccWord := onesMask r.totalBits <<< r.startBit

/-- The merged accumulator (43_write.md R190, R192): bits inside the mask take the value, the others stay. -/
def mergeField (r : Span) (value : Word64) (acc : AccWord) : AccWord :=
  (acc &&& ~~~(writeMask r)) ||| ((value.setWidth 128 <<< r.startBit) &&& writeMask r)

/-- `WriteCmd(D, WIDTH)` (43_write.md R190): resolve, assemble, merge, disassemble. The whole span is read before
any byte of it is written (70_reset_and_hazards.md R264). A resolver fault is taken (60_exceptions.md R237). -/
def writeCmd (e : Endian) (w : Width) (start stop : Bound) (wdata : Word64) (s : State) : Result :=
  match acceptance s with
  | some why => why.outcome
  | none =>
    match resolve start stop s.params.len with
    | .error c => .next (raiseFault c s)
    | .ok r =>
      match assemble e s r.startByte r.size with
      | .error why => why.outcome
      | .ok acc =>
        match disassemble e s r.startByte (mergeField r (writeValue s.params.i32Ext w wdata) acc) r.size with
        | .error why => why.outcome
        | .ok t => .next t

/-- WRLE.U8 (43_write.md R195). -/
def execWrleU8 (start stop : Bound) (wdata : Word64) (s : State) : Result := writeCmd .little .u8 start stop wdata s

/-- WRLE.U16 (43_write.md R196). -/
def execWrleU16 (start stop : Bound) (wdata : Word64) (s : State) : Result := writeCmd .little .u16 start stop wdata s

/-- WRLE.U32 (43_write.md R197). -/
def execWrleU32 (start stop : Bound) (wdata : Word64) (s : State) : Result := writeCmd .little .u32 start stop wdata s

/-- WRLE.U64 (43_write.md R198). -/
def execWrleU64 (start stop : Bound) (wdata : Word64) (s : State) : Result := writeCmd .little .u64 start stop wdata s

/-- WRLE.I32 (43_write.md R199). -/
def execWrleI32 (start stop : Bound) (wdata : Word64) (s : State) : Result := writeCmd .little .i32 start stop wdata s

/-- WRBE.U8 (43_write.md R200). -/
def execWrbeU8 (start stop : Bound) (wdata : Word64) (s : State) : Result := writeCmd .big .u8 start stop wdata s

/-- WRBE.U16 (43_write.md R201). -/
def execWrbeU16 (start stop : Bound) (wdata : Word64) (s : State) : Result := writeCmd .big .u16 start stop wdata s

/-- WRBE.U32 (43_write.md R202). -/
def execWrbeU32 (start stop : Bound) (wdata : Word64) (s : State) : Result := writeCmd .big .u32 start stop wdata s

/-- WRBE.U64 (43_write.md R203). -/
def execWrbeU64 (start stop : Bound) (wdata : Word64) (s : State) : Result := writeCmd .big .u64 start stop wdata s

/-- WRBE.I32 (43_write.md R204). -/
def execWrbeI32 (start stop : Bound) (wdata : Word64) (s : State) : Result := writeCmd .big .i32 start stop wdata s

end Sys2Proof.Machine
end

