-- ==== Sys2Proof/Machine/Dispatch.lean ====
section
/-! DEFINITION. One arm per command, each a direct call of its meaning. -/

namespace Sys2Proof.Machine

def exec (i : Instr) (s : State) : Host.Outcome State Fault Refusal :=
  match i with
  | .rdleU8 start stop => Sys2Proof.Machine.execRdleU8 start stop s
  | .rdleU16 start stop => Sys2Proof.Machine.execRdleU16 start stop s
  | .rdleU32 start stop => Sys2Proof.Machine.execRdleU32 start stop s
  | .rdleU64 start stop => Sys2Proof.Machine.execRdleU64 start stop s
  | .rdbeU8 start stop => Sys2Proof.Machine.execRdbeU8 start stop s
  | .rdbeU16 start stop => Sys2Proof.Machine.execRdbeU16 start stop s
  | .rdbeU32 start stop => Sys2Proof.Machine.execRdbeU32 start stop s
  | .rdbeU64 start stop => Sys2Proof.Machine.execRdbeU64 start stop s
  | .wrleU8 start stop wdata => Sys2Proof.Machine.execWrleU8 start stop wdata s
  | .wrleU16 start stop wdata => Sys2Proof.Machine.execWrleU16 start stop wdata s
  | .wrleU32 start stop wdata => Sys2Proof.Machine.execWrleU32 start stop wdata s
  | .wrleU64 start stop wdata => Sys2Proof.Machine.execWrleU64 start stop wdata s
  | .wrleI32 start stop wdata => Sys2Proof.Machine.execWrleI32 start stop wdata s
  | .wrbeU8 start stop wdata => Sys2Proof.Machine.execWrbeU8 start stop wdata s
  | .wrbeU16 start stop wdata => Sys2Proof.Machine.execWrbeU16 start stop wdata s
  | .wrbeU32 start stop wdata => Sys2Proof.Machine.execWrbeU32 start stop wdata s
  | .wrbeU64 start stop wdata => Sys2Proof.Machine.execWrbeU64 start stop wdata s
  | .wrbeI32 start stop wdata => Sys2Proof.Machine.execWrbeI32 start stop wdata s

end Sys2Proof.Machine
end

