-- ==== Sys2Proof/Machine/HostPort.lean ====
section
/-! DEFINITION. The host's side of the interface: a command offered on the command port, and the two registers the
host may read (10_state.md R33 to R35). -/

namespace Sys2Proof.Machine

/-- A command offered on the port, in the order of 30_encoding.md R105: accepted or not (60_exceptions.md R238), then
decoded, an illegal word raising ILLEGAL_COMMAND (R100), then run. A run in which another agent accesses the
command's span is refused (20_memory.md R78), as is an index the port cannot carry (00_scope.md R10). DESIGN CHOICE,
unsafe, log entry 18: an access of another agent outside the span, a write among them, does not stop the step and
leaves no trace in `BUF`. -/
def offerCommand (t : Transaction) (foreign : List Nat) (s : State) : Result :=
  match acceptance s with
  | some why => why.outcome
  | none =>
    match decode t with
    | .error _ => .next (raiseFault .illegalCommand s)
    | .ok i =>
      if i.wf s.params then
        if races i s.params.len foreign then .refused .race else exec i s
      else .refused .indexTooWide

/-- The host's next action, taken off the port; with nothing on the port nothing happens (DEDUCED, log entry 1). -/
def portStep (s : State) : Result :=
  match s.port with
  | [] => .next s
  | .reset :: rest => .next (assertReset (s.setPort rest))
  | .command t foreign :: rest => offerCommand t foreign (s.setPort rest)

/-- What the host reads in `STATUS`; bits 7:4 always read 0 (10_state.md R35, R38). -/
def hostReadStatus (s : State) : BitVec 8 := statusWord s.faultBit s.causeField

/-- What the host reads in `RDATA`: no defined value before the first completed read (10_state.md R34). -/
def hostReadRdata (s : State) : Option Word64 := s.rdata

/-- The transaction of a table word put at the head of the port, no other agent active. -/
def portWith (s : State) (nbits w : Nat) : State := s.setPort (.command (tableTransaction nbits w) [] :: s.port)

end Sys2Proof.Machine
end

