-- ==== Sys2Proof/Machine/Step.lean ====
section
/-! DEFINITION. One step of the machine: the host's next action (10_state.md R39, 20_memory.md R75). -/

namespace Sys2Proof.Machine

/-- One step: one action of the host, one atomic transaction (00_scope.md R15, 20_memory.md R75). -/
def step (s : State) : Host.Outcome State Fault Refusal := portStep s

/-- The state whose next action is the command of a table word; BFX fetches nothing (10_state.md R39), so the word
stands on the command port. -/
def State.withFetchWord (s : State) (nbits w : Nat) : State := portWith s nbits w

end Sys2Proof.Machine
end

