-- ==== Sys2Proof/Safety.lean ====
section
/-! DEFINITION. The terms in which claims about BFX are stated: the buffer as a number and as bits, the conditions
under which a range is accepted, the invariant of the machine, and a safe step. -/

namespace Sys2Proof.Machine

/-- BFX is ready: `STATUS.FAULT = 0` (10_state.md R46). -/
abbrev State.Ready (s : State) : Prop := s.faultBit = false

/-- BFX is halted: `STATUS.FAULT = 1` (10_state.md R46). -/
abbrev State.Halted (s : State) : Prop := s.faultBit = true

/-- Every byte of `BUF` has a value, as the host must provide (70_reset_and_hazards.md R262). -/
abbrev State.BufDefined (s : State) : Prop := ∀ i, i < s.params.len → (s.buf.read i).isSome = true

/-- `BUF` has no byte at or above `LEN` (20_memory.md R76). -/
abbrev State.BufBounded (s : State) : Prop := ∀ c ∈ s.buf, c.1 < s.params.len

/-- `STATUS` holds one of its legal values: FAULT and CAUSE agree, no reserved cause, bits 7:4 zero
(10_state.md R36 to R38). -/
abbrev State.StatusLegal (s : State) : Prop :=
  s.status = 0x00 ∨ s.status = 0x03 ∨ s.status = 0x05 ∨ s.status = 0x07 ∨ s.status = 0x09

/-- The machine's invariant: the buffer is canonical, whole and inside its bounds, and `STATUS` is legal. -/
abbrev State.Inv (s : State) : Prop :=
  Memory.wf s.buf = true ∧ s.BufBounded ∧ s.BufDefined ∧ s.StatusLegal

/-- The range is one the resolver accepts: a width of 1 to 64 and a start byte at most `LEN`
(40_range_resolver.md R124, R125, R129). -/
abbrev RangeAccepted (start stop : Bound) (len : Nat) : Prop :=
  1 ≤ totalBits start stop ∧ totalBits start stop ≤ 64 ∧ absStart start / 8 ≤ (len : Int)

/-- Logical byte `k` of the buffer as a number; 0 where it has no value. -/
def logicalByte (e : Endian) (s : State) (k : Nat) : Nat :=
  match readLogical e s k with
  | .ok b => b.toNat
  | .error _ => 0

/-- The sum of the `n` logical bytes from `start` on, each at its weight: `Σ_{j<n} V[start+j] * 2^(8j)`
(41_byte_assembler.md R140). -/
def spanValue (e : Endian) (s : State) (start : Nat) : Nat → Nat
  | 0 => 0
  | n + 1 => spanValue e s start n + logicalByte e s (start + n) * 2 ^ (8 * n)

/-- `N_D`, the whole buffer read as one unsigned integer (42_read.md R172). -/
def bufValue (e : Endian) (s : State) : Nat := spanValue e s 0 s.params.len

/-- Logical bit `i`: bit `i mod 8` of logical byte `V[i div 8]` (20_memory.md R62). -/
def logicalBit (e : Endian) (s : State) (i : Nat) : Bool := (logicalByte e s (i / 8)).testBit (i % 8)

/-- The closed form of a read result (42_read.md R172): `((N_D div 2^abs_start) mod 2^total_bits) mod 2^W`, as a
64-bit value. -/
def closedField (e : Endian) (bits : Nat) (start stop : Bound) (s : State) : Word64 :=
  BitVec.ofNat 64
    (bufValue e s / 2 ^ (absStart start).toNat % 2 ^ (totalBits start stop).toNat % 2 ^ bits)

/-- The value of a signed 32-bit write: the low 32 bits of `WDATA`, and above them copies of bit 31 where `I32_EXT` is
SIGN, zeros where it is ZERO (30_encoding.md R98). -/
def signedValue (ext : I32Ext) (wdata : Word64) : Word64 :=
  if ext = .sign ∧ wdata.getLsbD 31 = true then (wdata &&& 0xFFFFFFFF) ||| 0xFFFFFFFF00000000
  else wdata &&& 0xFFFFFFFF

/-- The value a write of this width puts into the field: `WDATA` cut to the value width (30_encoding.md R98). -/
def writtenValue (ext : I32Ext) (w : Width) (wdata : Word64) : Word64 :=
  match w with
  | .u8 => wdata &&& 0xFF
  | .u16 => wdata &&& 0xFFFF
  | .u32 => wdata &&& 0xFFFFFFFF
  | .u64 => wdata
  | .i32 => signedValue ext wdata

/-- The number that directionality `e` gives the bit of the buffer that directionality `f` numbers `i`: the same bit
of the same physical byte (20_memory.md R63, R64, R66). -/
def renumberBit (e f : Endian) (len i : Nat) : Nat := 8 * physIndex e len (physIndex f len (i / 8)) + i % 8

/-- Logical bit `i` belongs to the field: `abs_start ≤ i ≤ abs_end` (43_write.md R205). -/
abbrev InField (start stop : Bound) (i : Nat) : Prop := absStart start ≤ (i : Int) ∧ (i : Int) ≤ absEnd stop

/-- `t` has the field of `s` replaced by `value` in directionality `e`, and every other bit of the buffer as it was
(43_write.md R205, R207): bit by bit of the whole buffer's number, and byte by byte outside the span. -/
def FieldReplaced (e : Endian) (start stop : Bound) (value : Word64) (s t : State) : Prop :=
  t.Inv ∧
  (∀ i, i < 8 * s.params.len →
    (bufValue e t).testBit i =
      if InField start stop i then value.getLsbD (i - (absStart start).toNat) else (bufValue e s).testBit i) ∧
  (∀ r, resolve start stop s.params.len = .ok r →
    ∀ a, a ∉ spanIndices e s.params.len r → t.buf.read a = s.buf.read a)

/-- The fold of 41_byte_assembler.md R141: from the last byte of the span down to the first,
`acc = (acc << 8) | byte`. -/
def foldSpan (e : Endian) (s : State) (start n : Nat) : AccWord :=
  (List.range n).reverse.foldl (fun acc j => (acc <<< 8) ||| BitVec.ofNat 128 (logicalByte e s (start + j))) 0

/-- A transaction with its ignored operands written 0 (30_encoding.md R102, 92_eei_decisions.md D28). -/
def normalTransaction (t : Transaction) : Transaction :=
  { cmd := t.cmd
    sidx := if fieldSkind t.cmd = 2 then 0 else t.sidx
    eidx := if fieldEkind t.cmd = 2 then 0 else t.eidx
    wdata := if fieldOp t.cmd = .write then t.wdata else 0 }

/-- The illegal command words, (a) to (e) of 30_encoding.md R100, read off the bits. -/
abbrev IllegalWord (cmd : CmdWord) : Prop :=
  cmd.extractLsb' 9 7 ≠ 0 ∨ 5 ≤ (cmd.extractLsb' 2 3).toNat ∨
    (cmd.getLsbD 0 = false ∧ (cmd.extractLsb' 2 3).toNat = 4) ∨
    cmd.extractLsb' 5 2 = 3 ∨ cmd.extractLsb' 7 2 = 3

/-- A step that a run may take safely: a next state that keeps the invariant. -/
abbrev SafeStep (s : State) : Prop := ∃ t, step s = .next t ∧ t.Inv

end Sys2Proof.Machine
end

