-- ==== Sys2Proof/Certificates/Slice0/Obligations.lean ====
section
/-! DEFINITION. The statements for the provers. Each docstring names the rule of spec/ it formalises. -/

open Sys2Proof Sys2Proof.Machine

/-! ## Encoding -/

/-- 30_encoding.md R106: the three worked encodings, as encoded and as decoded. -/
def Obligations.WorkedEncodings : Prop :=
  encode (.rdleU32 (.included 8) (.excluded 24)) = ⟨0x0088, 8, 24, 0⟩ ∧
  decode ⟨0x0088, 8, 24, 0⟩ = .ok (.rdleU32 (.included 8) (.excluded 24)) ∧
  encode (.wrleU64 (.included 4) (.excluded 12) 0) = ⟨0x008D, 4, 12, 0⟩ ∧
  decode ⟨0x008D, 4, 12, 0⟩ = .ok (.wrleU64 (.included 4) (.excluded 12) 0) ∧
  encode (.rdleU32 .unbounded .unbounded) = ⟨0x0148, 0, 0, 0⟩ ∧
  decode ⟨0x0148, 0, 0, 0⟩ = .ok (.rdleU32 .unbounded .unbounded)

/-- 30_encoding.md R99: the selecting bits of the 18 rows, for every range and value. -/
def Obligations.OpcodeTableRows : Prop :=
  ∀ (a b : Bound) (v : Word64),
    (Instr.rdleU8 a b).matchWord = 0x0000 ∧ (Instr.rdleU16 a b).matchWord = 0x0004 ∧
    (Instr.rdleU32 a b).matchWord = 0x0008 ∧ (Instr.rdleU64 a b).matchWord = 0x000C ∧
    (Instr.rdbeU8 a b).matchWord = 0x0002 ∧ (Instr.rdbeU16 a b).matchWord = 0x0006 ∧
    (Instr.rdbeU32 a b).matchWord = 0x000A ∧ (Instr.rdbeU64 a b).matchWord = 0x000E ∧
    (Instr.wrleU8 a b v).matchWord = 0x0001 ∧ (Instr.wrleU16 a b v).matchWord = 0x0005 ∧
    (Instr.wrleU32 a b v).matchWord = 0x0009 ∧ (Instr.wrleU64 a b v).matchWord = 0x000D ∧
    (Instr.wrleI32 a b v).matchWord = 0x0011 ∧ (Instr.wrbeU8 a b v).matchWord = 0x0003 ∧
    (Instr.wrbeU16 a b v).matchWord = 0x0007 ∧ (Instr.wrbeU32 a b v).matchWord = 0x000B ∧
    (Instr.wrbeU64 a b v).matchWord = 0x000F ∧ (Instr.wrbeI32 a b v).matchWord = 0x0013

/-- Decode and encode agree on every command, with every operand at every value. -/
def Obligations.DecodeOfEncode : Prop := ∀ i : Instr, decode (encode i) = .ok i

/-- The other direction: a transaction that decodes is the encoding of its command, up to the operands that the
command ignores; and its selecting bits are its row's. -/
def Obligations.EncodeOfDecode : Prop :=
  ∀ (t : Transaction) (i : Instr), decode t = .ok i →
    encode i = normalTransaction t ∧ t.cmd &&& 0xFE1F = i.matchWord

/-- 30_encoding.md R100: the words the decoder rejects are exactly those of (a) to (e); such a word on a ready
machine raises ILLEGAL_COMMAND and does nothing else; with RSVD = 0 and legal bound kinds, 14 of the 32 values of
`CMD[4:0]` are illegal. Where `foreign` is not empty, two conventions of the model, no rule of the spec, bear on the
second clause: a faulting command has no span and so no race (DEDUCED, notes/assumptions/8.md), and another agent's access
meanwhile leaves no trace in `BUF` (DESIGN CHOICE, unsafe, notes/assumptions/18.md). -/
def Obligations.IllegalWordsRaiseIllegalCommand : Prop :=
  (∀ t : Transaction, (∃ why, decode t = .error why) ↔ IllegalWord t.cmd) ∧
  (∀ (s : State) (t : Transaction) (foreign : List Nat) (rest : List PortEvent),
    s.StatusLegal → s.Ready → s.port = .command t foreign :: rest → IllegalWord t.cmd →
    step s = .next { s with status := 0x09, port := rest }) ∧
  ((List.range 32).filter fun n => decide (IllegalWord (BitVec.ofNat 16 n))).length = 14

/-- 30_encoding.md R98, 92_eei_decisions.md D12: `WDATA` bits above the value width are ignored. -/
def Obligations.UpperWriteBitsIgnored : Prop :=
  ∀ (s : State) (a b : Bound) (v w : Word64),
    (v.extractLsb' 0 8 = w.extractLsb' 0 8 →
      exec (.wrleU8 a b v) s = exec (.wrleU8 a b w) s ∧ exec (.wrbeU8 a b v) s = exec (.wrbeU8 a b w) s) ∧
    (v.extractLsb' 0 16 = w.extractLsb' 0 16 →
      exec (.wrleU16 a b v) s = exec (.wrleU16 a b w) s ∧ exec (.wrbeU16 a b v) s = exec (.wrbeU16 a b w) s) ∧
    (v.extractLsb' 0 32 = w.extractLsb' 0 32 →
      exec (.wrleU32 a b v) s = exec (.wrleU32 a b w) s ∧ exec (.wrbeU32 a b v) s = exec (.wrbeU32 a b w) s ∧
      exec (.wrleI32 a b v) s = exec (.wrleI32 a b w) s ∧ exec (.wrbeI32 a b v) s = exec (.wrbeI32 a b w) s)

/-! ## Range resolver -/

/-- 40_range_resolver.md R133: the worked examples. -/
def Obligations.ResolverWorkedExamples : Prop :=
  resolve .unbounded .unbounded 4 = .ok ⟨0, 64, 0, 4⟩ ∧
  resolve (.included 8) (.excluded 24) 4 = .ok ⟨0, 16, 1, 3⟩ ∧
  (∀ len, 1 ≤ len → resolve (.included 0) (.excluded 8) len = .ok ⟨0, 8, 0, 1⟩) ∧
  resolve (.included 4) (.excluded 12) 4 = .ok ⟨4, 8, 0, 2⟩ ∧
  resolve (.included 7) (.included 70) 9 = .ok ⟨7, 64, 0, 9⟩ ∧
  (∀ len, resolve (.included 0) (.included 64) len = .error .fieldTooWide) ∧
  (∀ len, resolve (.included 8) (.excluded 8) len = .error .fieldEmpty) ∧
  (∀ len, resolve (.included 0) (.excluded 0) len = .error .fieldEmpty) ∧
  (∀ len, resolve (.included 64) .unbounded len = .error .fieldEmpty) ∧
  resolve (.included 32) (.excluded 40) 4 = .ok ⟨0, 8, 4, 4⟩ ∧
  resolve (.included 40) (.excluded 48) 4 = .error .rangeOutsideBuffer

/-- 40_range_resolver.md R121 and R122: the absolute bits of each kind of bound, without wrapping; an excluded end of 0
gives -1, which leads to FIELD_EMPTY. -/
def Obligations.AbsoluteBitsOfBounds : Prop :=
  (∀ n : Nat, absStart (.included n) = (n : Int) ∧ absStart (.excluded n) = (n : Int) + 1 ∧ absStart .unbounded = 0) ∧
  (∀ n : Nat, absEnd (.included n) = (n : Int) ∧ absEnd (.excluded n) = (n : Int) - 1 ∧ absEnd .unbounded = 63) ∧
  (∀ b : Bound, 0 ≤ absStart b) ∧
  (∀ (b : Bound) (len : Nat), absEnd (.excluded 0) = -1 ∧ resolve b (.excluded 0) len = .error .fieldEmpty)

/-- 40_range_resolver.md R121 to R130: the tuple of every accepted range, computed from the absolute bits. -/
def Obligations.ResolvedTuple : Prop :=
  ∀ (a b : Bound) (len : Nat), RangeAccepted a b len →
    ∃ r, resolve a b len = .ok r ∧
      (r.startBit : Int) = absStart a % 8 ∧
      (r.totalBits : Int) = absEnd b - absStart a + 1 ∧
      (r.startByte : Int) = absStart a / 8 ∧
      (r.endByte : Int) = min (absEnd b / 8 + 1) (len : Int)

/-- 40_range_resolver.md R131: what holds when the resolver completes. -/
def Obligations.ResolverPostconditions : Prop :=
  ∀ (a b : Bound) (len : Nat) (r : Span), resolve a b len = .ok r →
    r.startBit ≤ 7 ∧ 1 ≤ r.totalBits ∧ r.totalBits ≤ 64 ∧ r.startByte ≤ r.endByte ∧ r.endByte ≤ len ∧
    r.endByte - r.startByte ≤ 9 ∧ (r.endByte - r.startByte = 0 ↔ r.startByte = len) ∧
    (absEnd b / 8 + 1 ≤ (len : Int) → r.startBit + r.totalBits ≤ 8 * (r.endByte - r.startByte)) ∧
    ((len : Int) < absEnd b / 8 + 1 → ∀ i, InField a b i → 8 * len ≤ i → r.endByte ≤ i / 8)

/-- 40_range_resolver.md R130, 60_exceptions.md R236: which fault a range raises, in the order the checks are taken. -/
def Obligations.ResolverFaultCauses : Prop :=
  ∀ (a b : Bound) (len : Nat),
    (resolve a b len = .error .fieldTooWide ↔ 64 < absEnd b - absStart a + 1) ∧
    (resolve a b len = .error .fieldEmpty ↔ absEnd b - absStart a + 1 < 1) ∧
    (resolve a b len = .error .rangeOutsideBuffer ↔
      1 ≤ absEnd b - absStart a + 1 ∧ absEnd b - absStart a + 1 ≤ 64 ∧ (len : Int) < absStart a / 8) ∧
    resolve a b len ≠ .error .illegalCommand

/-- 20_memory.md R70: how many bytes a command touches. -/
def Obligations.SpanLength : Prop :=
  ∀ (a b : Bound) (len : Nat) (r : Span), resolve a b len = .ok r →
    r.endByte - r.startByte ≤ 9 ∧
    (absEnd b / 8 + 1 ≤ (len : Int) → r.endByte - r.startByte = (r.startBit + r.totalBits - 1) / 8 + 1)

/-- 20_memory.md R73, 41_byte_assembler.md R144 and R145: the physical indices of a span, all inside the buffer and
no index twice. -/
def Obligations.SpanPhysicalIndices : Prop :=
  ∀ (a b : Bound) (len : Nat) (r : Span), resolve a b len = .ok r →
    (∀ i, i ∈ spanIndices .little len r ↔ r.startByte ≤ i ∧ i < r.endByte) ∧
    (∀ i, i ∈ spanIndices .big len r ↔ len - r.endByte ≤ i ∧ i < len - r.startByte) ∧
    (∀ e, (spanIndices e len r).Nodup ∧ ∀ i ∈ spanIndices e len r, i < len)

/-! ## Views, assembly, disassembly -/

/-- 20_memory.md R62 to R64 and R67: which physical bit each logical bit is. -/
def Obligations.PhysicalPlaceOfLogicalBits : Prop :=
  ∀ (s : State) (i : Nat) (v : Byte), i < 8 * s.params.len →
    (s.buf.read (i / 8) = some v → (bufValue .little s).testBit i = v.getLsbD (i % 8)) ∧
    (s.buf.read (s.params.len - 1 - i / 8) = some v → (bufValue .big s).testBit i = v.getLsbD (i % 8))

/-- 41_byte_assembler.md R140 and R142: the accumulator is the weighted sum of the span's bytes, and no byte leaves it. -/
def Obligations.AssemblyIsWeightedSum : Prop :=
  ∀ (e : Endian) (s : State) (start n : Nat), s.BufDefined → start + n ≤ s.params.len → n ≤ 9 →
    ∃ acc, assemble e s start n = .ok acc ∧ acc.toNat = spanValue e s start n ∧ acc.toNat < 2 ^ 72

/-- 41_byte_assembler.md R141: the source's fold gives the same accumulator. -/
def Obligations.FoldEqualsAssembly : Prop :=
  ∀ (e : Endian) (s : State) (start n : Nat), s.BufDefined → start + n ≤ s.params.len →
    assemble e s start n = .ok (foldSpan e s start n)

/-- 41_byte_assembler.md R143: disassembly gives byte `j` of the span the accumulator's bits `8j+7 : 8j` and changes
nothing else. -/
def Obligations.DisassemblyWritesSpan : Prop :=
  ∀ (e : Endian) (s : State) (start n : Nat) (acc : AccWord), start + n ≤ s.params.len →
    ∃ m, disassemble e s start acc n = .ok { s with buf := m } ∧
      (∀ j, j < n → readLogical e { s with buf := m } (start + j) = .ok (acc.extractLsb' (8 * j) 8)) ∧
      (∀ a, (∀ j, j < n → a ≠ physIndex e s.params.len (start + j)) → m.read a = s.buf.read a)

/-- 41_byte_assembler.md R146, 60_exceptions.md R235 (b): a span that starts exactly at `LEN` is empty; a read gives
0 and a write changes nothing. -/
def Obligations.EmptySpanReadsZeroWritesNothing : Prop :=
  ∀ (i : Instr) (s : State), s.StatusLegal → s.Ready → RangeAccepted i.shape.start i.shape.stop s.params.len →
    absStart i.shape.start / 8 = (s.params.len : Int) →
    (i.shape.op = .read → exec i s = .next { s with rdata := some 0 }) ∧
    (i.shape.op = .write → exec i s = .next s)

/-! ## Read commands -/

/-- 42_read.md R172: the closed form of every read command that does not fault, in both directionalities, and its whole
effect: `RDATA` holds it and nothing else changes. -/
def Obligations.ReadsClosedForm : Prop :=
  ∀ (s : State) (a b : Bound), s.Inv → s.Ready → RangeAccepted a b s.params.len →
    exec (.rdleU8 a b) s = .next { s with rdata := some (closedField .little 8 a b s) } ∧
    exec (.rdleU16 a b) s = .next { s with rdata := some (closedField .little 16 a b s) } ∧
    exec (.rdleU32 a b) s = .next { s with rdata := some (closedField .little 32 a b s) } ∧
    exec (.rdleU64 a b) s = .next { s with rdata := some (closedField .little 64 a b s) } ∧
    exec (.rdbeU8 a b) s = .next { s with rdata := some (closedField .big 8 a b s) } ∧
    exec (.rdbeU16 a b) s = .next { s with rdata := some (closedField .big 16 a b s) } ∧
    exec (.rdbeU32 a b) s = .next { s with rdata := some (closedField .big 32 a b s) } ∧
    exec (.rdbeU64 a b) s = .next { s with rdata := some (closedField .big 64 a b s) }

/-- 42_read.md R163: a read command on a ready machine writes only `RDATA`, or takes one of the three range faults and
leaves `RDATA` and `BUF`; while halted it is not accepted. -/
def Obligations.ReadEffects : Prop :=
  ∀ (i : Instr) (s : State), i.shape.op = .read → s.Inv →
    (s.Ready → (∃ v, exec i s = .next { s with rdata := some v }) ∨
      (∃ st, (st = 0x03 ∨ st = 0x05 ∨ st = 0x07) ∧ exec i s = .next { s with status := st })) ∧
    (s.Halted → exec i s = .fault .halted)

/-- 42_read.md R173: reading big-endian is reading the byte-reversed buffer little-endian, whatever the range. -/
def Obligations.EndiannessSymmetry : Prop :=
  ∀ (s t : State) (a b : Bound), s.Inv → t.Inv → s.Ready → t.Ready → t.params = s.params → t.rdata = s.rdata →
    (∀ k, k < s.params.len → t.buf.read k = s.buf.read (s.params.len - 1 - k)) →
    ∀ p ∈ [(Instr.rdbeU8 a b, Instr.rdleU8 a b), (Instr.rdbeU16 a b, Instr.rdleU16 a b),
           (Instr.rdbeU32 a b, Instr.rdleU32 a b), (Instr.rdbeU64 a b, Instr.rdleU64 a b)],
      ∃ v st, exec p.1 s = .next { s with rdata := v, status := st } ∧
        exec p.2 t = .next { t with rdata := v, status := st }

/-- 42_read.md R174: a field inside the buffer that is no wider than the output is read exactly. -/
def Obligations.ExactReads : Prop :=
  ∀ (i : Instr) (s : State), i.shape.op = .read → s.Inv → s.Ready →
    RangeAccepted i.shape.start i.shape.stop s.params.len →
    absEnd i.shape.stop < 8 * (s.params.len : Int) → totalBits i.shape.start i.shape.stop ≤ widthBits i.shape.width →
    ∃ v, exec i s = .next { s with rdata := some v } ∧
      ∀ j, v.getLsbD j = if (j : Int) < totalBits i.shape.start i.shape.stop
        then logicalBit i.shape.endian s ((absStart i.shape.start).toNat + j) else false

/-- 20_memory.md R68: a read of a narrow range inside a wider one returns the corresponding bits of the wider read. -/
def Obligations.NarrowReadInsideWideRead : Prop :=
  ∀ (s : State) (a b c d : Bound), s.Inv → s.Ready →
    RangeAccepted a b s.params.len → RangeAccepted c d s.params.len →
    absStart a ≤ absStart c → absEnd d ≤ absEnd b →
    ∀ p ∈ [(Instr.rdleU64 a b, Instr.rdleU64 c d), (Instr.rdbeU64 a b, Instr.rdbeU64 c d)],
      ∃ wide narrow, exec p.1 s = .next { s with rdata := some wide } ∧
        exec p.2 s = .next { s with rdata := some narrow } ∧
        ∀ j, narrow.getLsbD j =
          if (j : Int) < totalBits c d then wide.getLsbD (j + (absStart c - absStart a).toNat) else false

/-! ## Write commands -/

/-- 43_write.md R205 (with R207's frame): every write command that does not fault, in both directionalities and every
value width, and its whole effect: the field of `BUF` holds the value, and nothing else changes. The value of a signed
write follows `I32_EXT` (30_encoding.md R98). -/
def Obligations.WritesClosedForm : Prop :=
  ∀ (s : State) (a b : Bound) (v : Word64), s.Inv → s.Ready → RangeAccepted a b s.params.len →
    (∃ m, exec (.wrleU8 a b v) s = .next { s with buf := m } ∧
      FieldReplaced .little a b (v &&& 0xFF) s { s with buf := m }) ∧
    (∃ m, exec (.wrleU16 a b v) s = .next { s with buf := m } ∧
      FieldReplaced .little a b (v &&& 0xFFFF) s { s with buf := m }) ∧
    (∃ m, exec (.wrleU32 a b v) s = .next { s with buf := m } ∧
      FieldReplaced .little a b (v &&& 0xFFFFFFFF) s { s with buf := m }) ∧
    (∃ m, exec (.wrleU64 a b v) s = .next { s with buf := m } ∧
      FieldReplaced .little a b v s { s with buf := m }) ∧
    (∃ m, exec (.wrleI32 a b v) s = .next { s with buf := m } ∧
      FieldReplaced .little a b (signedValue s.params.i32Ext v) s { s with buf := m }) ∧
    (∃ m, exec (.wrbeU8 a b v) s = .next { s with buf := m } ∧
      FieldReplaced .big a b (v &&& 0xFF) s { s with buf := m }) ∧
    (∃ m, exec (.wrbeU16 a b v) s = .next { s with buf := m } ∧
      FieldReplaced .big a b (v &&& 0xFFFF) s { s with buf := m }) ∧
    (∃ m, exec (.wrbeU32 a b v) s = .next { s with buf := m } ∧
      FieldReplaced .big a b (v &&& 0xFFFFFFFF) s { s with buf := m }) ∧
    (∃ m, exec (.wrbeU64 a b v) s = .next { s with buf := m } ∧
      FieldReplaced .big a b v s { s with buf := m }) ∧
    (∃ m, exec (.wrbeI32 a b v) s = .next { s with buf := m } ∧
      FieldReplaced .big a b (signedValue s.params.i32Ext v) s { s with buf := m })

/-- 43_write.md R199: `I32_EXT` is visible only when `WDATA[31] = 1` and `total_bits > 32`. -/
def Obligations.SignExtensionVisibleOnlyInWideNegative : Prop :=
  ∀ (s : State) (a b : Bound) (v : Word64), s.Inv → s.Ready → RangeAccepted a b s.params.len →
    (v.getLsbD 31 = false ∨ totalBits a b ≤ 32) →
    ∀ i ∈ [Instr.wrleI32 a b v, Instr.wrbeI32 a b v],
      ∃ m, ∀ ext, exec i { s with params := { s.params with i32Ext := ext } } =
        .next { s with params := { s.params with i32Ext := ext }, buf := m }

/-- 43_write.md R194: a write command on a ready machine whose range resolves writes only the span bytes of `BUF`; one
whose range does not takes one of the three range faults and changes no byte (R209); while halted it is not accepted. -/
def Obligations.WriteEffects : Prop :=
  ∀ (i : Instr) (s : State), i.shape.op = .write → s.Inv →
    (s.Ready → ∀ r, resolve i.shape.start i.shape.stop s.params.len = .ok r →
      ∃ m, exec i s = .next { s with buf := m } ∧
        ∀ a, a ∉ spanIndices i.shape.endian s.params.len r → m.read a = s.buf.read a) ∧
    (s.Ready → ∀ c, resolve i.shape.start i.shape.stop s.params.len = .error c →
      ∃ st, (st = 0x03 ∨ st = 0x05 ∨ st = 0x07) ∧ exec i s = .next { s with status := st }) ∧
    (s.Halted → exec i s = .fault .halted)

/-- 43_write.md R207: no bit outside the field and no byte outside the span changes, whatever the write command. -/
def Obligations.WriteNonInterference : Prop :=
  ∀ (i : Instr) (s t : State), i.shape.op = .write → s.Inv → exec i s = .next t →
    (∀ j, ¬ InField i.shape.start i.shape.stop j →
      (bufValue i.shape.endian t).testBit j = (bufValue i.shape.endian s).testBit j) ∧
    (∀ r, resolve i.shape.start i.shape.stop s.params.len = .ok r →
      ∀ a, a ∉ spanIndices i.shape.endian s.params.len r → t.buf.read a = s.buf.read a)

/-- 43_write.md R206: writing back what was read leaves `BUF` unchanged, clamped ranges included. -/
def Obligations.RoundTrip : Prop :=
  ∀ (s : State) (a b : Bound), s.Inv → s.Ready → RangeAccepted a b s.params.len →
    (∃ v, exec (.rdleU64 a b) s = .next { s with rdata := some v } ∧
      exec (.wrleU64 a b v) { s with rdata := some v } = .next { s with rdata := some v }) ∧
    (∃ v, exec (.rdbeU64 a b) s = .next { s with rdata := some v } ∧
      exec (.wrbeU64 a b v) { s with rdata := some v } = .next { s with rdata := some v })

/-- 43_write.md R208: a value written into a field inside the buffer and read back is the value cut to the field. -/
def Obligations.TruncationOnWrite : Prop :=
  ∀ (s : State) (a b : Bound) (v : Word64), s.Inv → s.Ready → RangeAccepted a b s.params.len →
    absEnd b < 8 * (s.params.len : Int) → totalBits a b < 64 →
    (∃ m, exec (.wrleU64 a b v) s = .next { s with buf := m } ∧
      exec (.rdleU64 a b) { s with buf := m } =
        .next { s with buf := m, rdata := some (v &&& ((1#64 <<< (totalBits a b).toNat) - 1#64)) }) ∧
    (∃ m, exec (.wrbeU64 a b v) s = .next { s with buf := m } ∧
      exec (.rdbeU64 a b) { s with buf := m } =
        .next { s with buf := m, rdata := some (v &&& ((1#64 <<< (totalBits a b).toNat) - 1#64)) })

/-- 20_memory.md R74: a command that completes is idempotent; issued again it changes nothing. -/
def Obligations.CommandsAreIdempotent : Prop :=
  ∀ (i : Instr) (s t : State), s.Inv → exec i s = .next t → t.Ready → exec i t = .next t

/-! ## Faults, reset, the machine -/

/-- 60_exceptions.md R230, R236, R237: the fault a range raises is taken: `STATUS` records it and nothing else changes.
For every command. -/
def Obligations.RangeFaultEntry : Prop :=
  ∀ (i : Instr) (s : State), s.StatusLegal → s.Ready →
    (64 < totalBits i.shape.start i.shape.stop → exec i s = .next { s with status := 0x03 }) ∧
    (totalBits i.shape.start i.shape.stop < 1 → exec i s = .next { s with status := 0x05 }) ∧
    (1 ≤ totalBits i.shape.start i.shape.stop → totalBits i.shape.start i.shape.stop ≤ 64 →
      (s.params.len : Int) < absStart i.shape.start / 8 → exec i s = .next { s with status := 0x07 })

/-- 60_exceptions.md R238: while `STATUS.FAULT = 1` no command is accepted, as an instruction or on the port, legal or
not; and a step leaves the halted state only by reset. -/
def Obligations.HaltedAcceptsNoCommand : Prop :=
  ∀ s : State, s.StatusLegal → s.Halted →
    (∀ i : Instr, exec i s = .fault .halted) ∧
    (∀ tx foreign rest, s.port = .command tx foreign :: rest → step s = .fault .halted) ∧
    (∀ t, step s = .next t → t.Halted ∨ ∃ rest, s.port = .reset :: rest)

/-- 70_reset_and_hazards.md R267: every command ends: it completes, or it faults. -/
def Obligations.EveryCommandEnds : Prop :=
  ∀ (i : Instr) (s : State), s.Inv → s.Ready →
    (RangeAccepted i.shape.start i.shape.stop s.params.len → ∃ t, exec i s = .next t ∧ t.Ready) ∧
    (¬ RangeAccepted i.shape.start i.shape.stop s.params.len → ∃ t, exec i s = .next t ∧ t.Halted)

/-- 10_state.md R35: only fault entry and reset change `STATUS`; a fault entry changes nothing else. Where `foreign` is not
empty, two conventions of the model, no rule of the spec, bear on the last clause: a faulting command has no span and so no
race (DEDUCED, notes/assumptions/8.md), and another agent's access meanwhile leaves no trace in `BUF` (DESIGN CHOICE,
unsafe, notes/assumptions/18.md). -/
def Obligations.OnlyFaultAndResetChangeStatus : Prop :=
  ∀ s t : State, step s = .next t →
    t.status = s.status ∨
    (∃ rest, s.port = .reset :: rest ∧ t.status = 0x00) ∨
    (∃ tx foreign rest st, s.port = .command tx foreign :: rest ∧ s.Ready ∧
      (st = 0x03 ∨ st = 0x05 ∨ st = 0x07 ∨ st = 0x09) ∧ t = { s with status := st, port := rest })

/-- 10_state.md R34: only a read command that completes writes `RDATA`; writes and faulting commands leave it. -/
def Obligations.OnlyCompletedReadsWriteRdata : Prop :=
  ∀ (i : Instr) (s t : State), exec i s = .next t →
    (i.shape.op = .write → t.rdata = s.rdata) ∧ (t.Halted → t.rdata = s.rdata) ∧
    (i.shape.op = .read → t.Ready → ∃ v, t.rdata = some v)

/-- 10_state.md R44: no step changes `LEN`, `IDX_W` or `I32_EXT`. -/
def Obligations.ParametersNeverChange : Prop := ∀ s t : State, step s = .next t → t.params = s.params

/-- 20_memory.md R78, 70_reset_and_hazards.md R265: an access of another agent to any byte of the running command's
span is refused. -/
def Obligations.RaceOnSpanRefused : Prop :=
  ∀ (s : State) (tx : Transaction) (foreign : List Nat) (rest : List PortEvent) (i : Instr) (r : Span) (x : Nat),
    s.StatusLegal → s.Ready → s.port = .command tx foreign :: rest → decode tx = .ok i → i.wf s.params = true →
    resolve i.shape.start i.shape.stop s.params.len = .ok r →
    x ∈ spanIndices i.shape.endian s.params.len r → x ∈ foreign → step s = .refused .race

/-- 70_reset_and_hazards.md R262, 93_implementation_defined.md U10: a command whose span holds a byte the host never
defined is refused; no such byte is read as 0. -/
def Obligations.UndefinedByteRefused : Prop :=
  ∀ (i : Instr) (s : State) (r : Span) (x : Nat), s.StatusLegal → s.Ready →
    resolve i.shape.start i.shape.stop s.params.len = .ok r →
    x ∈ spanIndices i.shape.endian s.params.len r → s.buf.read x = none → exec i s = .refused .undefinedByte

/-- 20_memory.md R73 and R76: byte indices at and above `LEN` do not exist, and no command can reach them (second
clause). That the model's own byte accesses answer the fault `noSuchByte` there (first clause) is the model's convention,
DEDUCED, notes/assumptions/13.md: it is no fault of 60_exceptions.md R230. -/
def Obligations.NoCommandReachesBeyondBuffer : Prop :=
  (∀ (s : State) (x : Nat) (v : Byte), s.params.len ≤ x →
    readByte s x = .error (.fault .noSuchByte) ∧ writeByte s x v = .error (.fault .noSuchByte)) ∧
  (∀ (i : Instr) (s : State), exec i s ≠ .fault .noSuchByte)

/-- 00_scope.md R10: a transaction whose indices an `IDX_W`-bit port cannot carry does not exist; the model refuses it
(DESIGN CHOICE, notes/assumptions/6.md). -/
def Obligations.IndexWiderThanPortRefused : Prop :=
  ∀ (s : State) (tx : Transaction) (foreign : List Nat) (rest : List PortEvent) (i : Instr),
    s.StatusLegal → s.Ready → s.port = .command tx foreign :: rest → decode tx = .ok i → i.wf s.params = false →
    step s = .refused .indexTooWide

/-- 93_implementation_defined.md U9: a reserved `STATUS.CAUSE`, which BFX never writes, is refused. -/
def Obligations.ReservedCauseRefused : Prop :=
  ∀ (i : Instr) (s : State), 5 ≤ (s.status.extractLsb' 1 3).toNat → exec i s = .refused .reservedCause

/-- 10_state.md R36 to R38: what the host reads in `STATUS`: bits 7:4 read 0 in every state, and a legal `STATUS` reads
as it stands. -/
def Obligations.HostReadsStatus : Prop :=
  ∀ s : State, (hostReadStatus s).extractLsb' 4 4 = 0 ∧ (s.StatusLegal → hostReadStatus s = s.status)

/-- 70_reset_and_hazards.md R260: reset, asserted in any state, clears `STATUS`, makes `RDATA` absent and leaves `BUF`
and the parameters. -/
def Obligations.ResetClearsRegistersKeepsBuffer : Prop :=
  ∀ (s : State) (rest : List PortEvent), s.port = .reset :: rest →
    step s = .next { s with status := 0x00, rdata := none, port := rest }

/-- 10_state.md R45: the registers right after reset, in the model's reset state and after an asserted reset. -/
def Obligations.RegistersAfterReset : Prop :=
  State.reset.rdata = none ∧ State.reset.faultBit = false ∧ State.reset.causeField = 0 ∧
  State.reset.status = 0x00 ∧
  ∀ s : State, (assertReset s).buf = s.buf ∧ (assertReset s).rdata = none ∧ (assertReset s).faultBit = false ∧
    (assertReset s).causeField = 0 ∧ (assertReset s).status.extractLsb' 4 4 = 0

/-- The model's own convention (DEDUCED, notes/assumptions/1.md): with no action of the host, nothing happens. -/
def Obligations.NoActionNoChange : Prop := ∀ s : State, s.port = [] → step s = .next s

/-- A step runs the command that the transaction on the port decodes to (30_encoding.md R105): the port moves past the
transaction, the command runs on the rest. Where `foreign` is not empty (accesses of other agents outside the span), that
the step goes on and that such an access leaves no trace in `BUF` is the model's choice, no rule of the spec: DESIGN
CHOICE, unsafe, notes/assumptions/18.md. -/
def Obligations.StepRunsDecodedCommand : Prop :=
  ∀ (s : State) (tx : Transaction) (foreign : List Nat) (rest : List PortEvent) (i : Instr),
    s.StatusLegal → s.Ready → s.port = .command tx foreign :: rest → decode tx = .ok i → i.wf s.params = true →
    races i s.params.len foreign = false → step s = exec i { s with port := rest }

/-- 20_memory.md R77, 70_reset_and_hazards.md R263: over two steps of the machine, with a write command and then a
read command on the port, the read sees the write: whatever their widths, directionalities and ranges (overlapping or
not, clamped or not), each bit of `RDATA` inside the read's field and output width is the written bit where the two
fields overlap, and the bit `BUF` had before elsewhere. Nothing but `BUF`, `RDATA` and the port changes. Two DESIGN CHOICES of the model, both unsafe and no rule of
the spec, bear on it: where `f` or `g` is not empty, another agent's access outside the span leaves no trace in `BUF`
(notes/assumptions/18.md); and nobody else writes `BUF` between the two commands (notes/assumptions/14.md). -/
def Obligations.ReadAfterWriteOverSteps : Prop :=
  ∀ (s : State) (wr rd : Instr) (tx ty : Transaction) (f g : List Nat) (rest : List PortEvent),
    s.Inv → s.Ready → wr.shape.op = .write → rd.shape.op = .read →
    RangeAccepted wr.shape.start wr.shape.stop s.params.len → RangeAccepted rd.shape.start rd.shape.stop s.params.len →
    decode tx = .ok wr → decode ty = .ok rd → wr.wf s.params = true → rd.wf s.params = true →
    races wr s.params.len f = false → races rd s.params.len g = false →
    s.port = .command tx f :: .command ty g :: rest →
    ∃ m w, Sys2Proof.core.run 2 s = .next { s with buf := m, rdata := some w, port := rest } ∧
      ∀ j, w.getLsbD j =
        if j < widthBits rd.shape.width ∧ (j : Int) < totalBits rd.shape.start rd.shape.stop then
          let i := (absStart rd.shape.start).toNat + j
          let k := renumberBit wr.shape.endian rd.shape.endian s.params.len i
          if i < 8 * s.params.len ∧ InField wr.shape.start wr.shape.stop k then
            (writtenValue s.params.i32Ext wr.shape.width wr.shape.wdata).getLsbD (k - (absStart wr.shape.start).toNat)
          else logicalBit rd.shape.endian s i
        else false

/-- 70_reset_and_hazards.md R262: the state of a launch has as its buffer the bytes the host supplied, all defined, and
so meets the invariant. That it is ready with `RDATA` absent, as after reset, is the model's convention, DEDUCED,
notes/assumptions/17.md. -/
def Obligations.LaunchProvidesBuffer : Prop :=
  ∀ (bytes : List Byte) (idxW : Nat) (ext : I32Ext) (port : List PortEvent),
    (State.launch bytes idxW ext port).Inv ∧ (State.launch bytes idxW ext port).Ready ∧
    (State.launch bytes idxW ext port).rdata = none ∧
    ∀ i, (State.launch bytes idxW ext port).buf.read i = bytes[i]?

/-- The reset state meets the machine's invariant. -/
def Obligations.ResetMeetsInvariant : Prop := State.reset.Inv ∧ State.reset.Ready

/-- Every step keeps the machine's invariant: the buffer canonical, whole and inside its bounds (20_memory.md R73),
`STATUS` legal (10_state.md R36 to R38). -/
def Obligations.StepKeepsInvariant : Prop := ∀ s t : State, s.Inv → step s = .next t → t.Inv
end

