-- ==== Sys2Proof/Laws/State.lean ====
section
/-! SUPPORT. One lemma per field per update of the state record. -/

namespace Sys2Proof.Machine

@[simp] theorem State.setRdata_params (s : State) (v : Option Word64) : (s.setRdata v).params = s.params := rfl

@[simp] theorem State.setRdata_buf (s : State) (v : Option Word64) : (s.setRdata v).buf = s.buf := rfl

@[simp] theorem State.setRdata_rdata (s : State) (v : Option Word64) : (s.setRdata v).rdata = v := rfl

@[simp] theorem State.setRdata_status (s : State) (v : Option Word64) : (s.setRdata v).status = s.status := rfl

@[simp] theorem State.setRdata_port (s : State) (v : Option Word64) : (s.setRdata v).port = s.port := rfl

@[simp] theorem State.setStatus_params (s : State) (v : BitVec 8) : (s.setStatus v).params = s.params := rfl

@[simp] theorem State.setStatus_buf (s : State) (v : BitVec 8) : (s.setStatus v).buf = s.buf := rfl

@[simp] theorem State.setStatus_rdata (s : State) (v : BitVec 8) : (s.setStatus v).rdata = s.rdata := rfl

@[simp] theorem State.setStatus_status (s : State) (v : BitVec 8) : (s.setStatus v).status = v := rfl

@[simp] theorem State.setStatus_port (s : State) (v : BitVec 8) : (s.setStatus v).port = s.port := rfl

@[simp] theorem State.setBuf_params (s : State) (m : Memory) : (s.setBuf m).params = s.params := rfl

@[simp] theorem State.setBuf_buf (s : State) (m : Memory) : (s.setBuf m).buf = m := rfl

@[simp] theorem State.setBuf_rdata (s : State) (m : Memory) : (s.setBuf m).rdata = s.rdata := rfl

@[simp] theorem State.setBuf_status (s : State) (m : Memory) : (s.setBuf m).status = s.status := rfl

@[simp] theorem State.setBuf_port (s : State) (m : Memory) : (s.setBuf m).port = s.port := rfl

@[simp] theorem State.setPort_params (s : State) (p : List PortEvent) : (s.setPort p).params = s.params := rfl

@[simp] theorem State.setPort_buf (s : State) (p : List PortEvent) : (s.setPort p).buf = s.buf := rfl

@[simp] theorem State.setPort_rdata (s : State) (p : List PortEvent) : (s.setPort p).rdata = s.rdata := rfl

@[simp] theorem State.setPort_status (s : State) (p : List PortEvent) : (s.setPort p).status = s.status := rfl

@[simp] theorem State.setPort_port (s : State) (p : List PortEvent) : (s.setPort p).port = p := rfl

@[simp] theorem raiseFault_params (c : Cause) (s : State) : (raiseFault c s).params = s.params := rfl

@[simp] theorem raiseFault_buf (c : Cause) (s : State) : (raiseFault c s).buf = s.buf := rfl

@[simp] theorem raiseFault_rdata (c : Cause) (s : State) : (raiseFault c s).rdata = s.rdata := rfl

@[simp] theorem raiseFault_port (c : Cause) (s : State) : (raiseFault c s).port = s.port := rfl

@[simp] theorem raiseFault_status (c : Cause) (s : State) : (raiseFault c s).status = statusWord true c.code := rfl

@[simp] theorem assertReset_params (s : State) : (assertReset s).params = s.params := rfl

@[simp] theorem assertReset_buf (s : State) : (assertReset s).buf = s.buf := rfl

@[simp] theorem assertReset_rdata (s : State) : (assertReset s).rdata = none := rfl

@[simp] theorem assertReset_status (s : State) : (assertReset s).status = 0 := rfl

@[simp] theorem assertReset_port (s : State) : (assertReset s).port = s.port := rfl

end Sys2Proof.Machine
end

