-- ==== Sys2Proof/Laws/Memory.lean ====
section
/-! SUPPORT. The laws of the buffer: read after write, and that every operation keeps the canonical form. -/

namespace Sys2Proof.Machine

@[simp] theorem Memory.read_nil (i : Nat) : Memory.read [] i = none := rfl

theorem Memory.read_cons (c : Host.Cell) (m : Memory) (i : Nat) :
    Memory.read (c :: m) i = if i = c.1 then some c.2 else Memory.read m i := rfl

/-- A read after a write: the written byte at its index, what stood there elsewhere. -/
theorem Memory.read_write (m : Memory) (i j : Nat) (v : Byte) :
    (Memory.write m i v).read j = if j = i then some v else m.read j := by
  induction m with
  | nil => simp [Memory.write, Memory.read_cons]
  | cons c m ih =>
    rcases c with ⟨a, b⟩
    simp only [Memory.write]
    split
    · simp [Memory.read_cons]
    · split
      · rename_i h; subst h; simp only [Memory.read_cons]; split <;> rfl
      · simp only [Memory.read_cons, ih]
        split <;> split <;> simp_all

theorem Memory.mem_write {m : Memory} {i : Nat} {v : Byte} {c : Host.Cell} (h : c ∈ Memory.write m i v) :
    c = (i, v) ∨ c ∈ m := by
  induction m with
  | nil => simpa [Memory.write] using h
  | cons d m ih =>
    rcases d with ⟨a, b⟩
    simp only [Memory.write] at h
    split at h
    · simpa using h
    · split at h
      · rcases List.mem_cons.1 h with h | h
        · exact .inl h
        · exact .inr (List.mem_cons_of_mem _ h)
      · rcases List.mem_cons.1 h with h | h
        · exact .inr (h ▸ List.mem_cons_self)
        · exact (ih h).imp id (List.mem_cons_of_mem _)

/-- The canonical form, seen as a pairwise order. -/
theorem Memory.wf_iff (m : Memory) : Memory.wf m = true ↔ m.Pairwise (fun c d => c.1 < d.1) := by
  induction m with
  | nil => simp [Memory.wf]
  | cons c m ih =>
    cases m with
    | nil => simp [Memory.wf]
    | cons d m =>
      rw [Memory.wf, Bool.and_eq_true, ih, List.pairwise_cons (a := c), decide_eq_true_eq]
      refine ⟨fun ⟨h, hp⟩ => ⟨fun x hx => ?_, hp⟩, fun ⟨h, hp⟩ => ⟨h d List.mem_cons_self, hp⟩⟩
      rcases List.mem_cons.1 hx with rfl | hx
      · exact h
      · exact h.trans ((List.pairwise_cons.1 hp).1 x hx)

/-- A write keeps the canonical form. -/
theorem Memory.wf_write {m : Memory} (h : Memory.wf m = true) (i : Nat) (v : Byte) :
    Memory.wf (Memory.write m i v) = true := by
  rw [Memory.wf_iff] at *
  induction m with
  | nil => simp [Memory.write]
  | cons c m ih =>
    rcases c with ⟨a, b⟩
    obtain ⟨hc, hm⟩ := List.pairwise_cons.1 h
    simp only [Memory.write]
    split
    · rename_i hlt
      refine List.pairwise_cons.2 ⟨fun x hx => ?_, h⟩
      rcases List.mem_cons.1 hx with rfl | hx
      · exact hlt
      · exact hlt.trans (hc x hx)
    · split
      · rename_i heq
        exact List.pairwise_cons.2 ⟨fun x hx => heq ▸ hc x hx, hm⟩
      · refine List.pairwise_cons.2 ⟨fun x hx => ?_, ih hm⟩
        rcases Memory.mem_write hx with rfl | hx
        · show a < i; omega
        · exact hc x hx

theorem Memory.read_none_of_lt {m : Memory} {i : Nat} (h : ∀ c ∈ m, i < c.1) : m.read i = none := by
  induction m with
  | nil => rfl
  | cons c m ih =>
    have hc := h c List.mem_cons_self
    rw [Memory.read_cons, if_neg (by omega)]
    exact ih fun d hd => h d (List.mem_cons_of_mem _ hd)

theorem Memory.mem_of_read {m : Memory} {i : Nat} {v : Byte} (h : m.read i = some v) : (i, v) ∈ m := by
  induction m with
  | nil => simp at h
  | cons c m ih =>
    rw [Memory.read_cons] at h
    split at h
    · rename_i hi; cases h; exact hi ▸ List.mem_cons_self
    · exact List.mem_cons_of_mem _ (ih h)

/-- Equal memories are equal data: two canonical buffers that read the same are the same list. -/
theorem Memory.ext_read {m k : Memory} (hm : Memory.wf m = true) (hk : Memory.wf k = true)
    (h : ∀ i, m.read i = k.read i) : m = k := by
  rw [Memory.wf_iff] at *
  induction m generalizing k with
  | nil =>
    cases k with
    | nil => rfl
    | cons d k => simpa [Memory.read_cons] using h d.1
  | cons c m ih =>
    cases k with
    | nil => simpa [Memory.read_cons] using h c.1
    | cons d k =>
      obtain ⟨hc, hm⟩ := List.pairwise_cons.1 hm
      obtain ⟨hd, hk⟩ := List.pairwise_cons.1 hk
      have hcd : c.1 = d.1 := by
        rcases Nat.lt_trichotomy c.1 d.1 with hlt | heq | hlt
        · have := h c.1
          rw [Memory.read_cons, if_pos rfl, Memory.read_cons, if_neg (by omega),
            Memory.read_none_of_lt fun x hx => hlt.trans (hd x hx)] at this
          cases this
        · exact heq
        · have := h d.1
          rw [Memory.read_cons, if_neg (by omega), Memory.read_cons, if_pos rfl,
            Memory.read_none_of_lt fun x hx => hlt.trans (hc x hx)] at this
          cases this
      have hval : c.2 = d.2 := by
        have := h c.1
        rw [Memory.read_cons, if_pos rfl, Memory.read_cons, if_pos hcd] at this
        exact Option.some.inj this
      have hrest : m = k := by
        refine ih hm hk fun i => ?_
        by_cases hi : i = c.1
        · rw [Memory.read_none_of_lt fun x hx => hi ▸ hc x hx,
            Memory.read_none_of_lt fun x hx => by rw [hi, hcd]; exact hd x hx]
        · have := h i
          rwa [Memory.read_cons, if_neg hi, Memory.read_cons, if_neg (hcd ▸ hi)] at this
      rw [hrest, Prod.ext hcd hval]

/-- Writing back what stands there changes nothing. -/
theorem Memory.write_read_self {m : Memory} (hm : Memory.wf m = true) {i : Nat} {v : Byte} (h : m.read i = some v) :
    Memory.write m i v = m := by
  refine Memory.ext_read (Memory.wf_write hm i v) hm fun j => ?_
  rw [Memory.read_write]
  split
  · rename_i hj; rw [hj, h]
  · rfl

theorem Memory.read_ofBytes (base : Nat) (bytes : List Byte) (i : Nat) :
    (Memory.ofBytes base bytes).read i = if base ≤ i then bytes[i - base]? else none := by
  induction bytes generalizing base with
  | nil => simp [Memory.ofBytes]
  | cons b bytes ih =>
    rw [Memory.ofBytes, Memory.read_cons, ih]
    rcases Nat.lt_trichotomy i base with hlt | rfl | hlt
    · rw [if_neg (by simp only; omega), if_neg (by omega), if_neg (by omega)]
    · simp
    · rw [if_neg (by simp only; omega), if_pos (by omega), if_pos (by omega),
        show i - base = (i - (base + 1)) + 1 by omega]
      simp

theorem Memory.mem_ofBytes {base : Nat} {bytes : List Byte} {c : Host.Cell} (h : c ∈ Memory.ofBytes base bytes) :
    base ≤ c.1 ∧ c.1 < base + bytes.length := by
  induction bytes generalizing base with
  | nil => simp [Memory.ofBytes] at h
  | cons b bytes ih =>
    rcases List.mem_cons.1 h with rfl | h
    · simp
    · have := ih h
      simp only [List.length_cons]
      omega

/-- The buffer of a launch is canonical. -/
theorem Memory.wf_ofBytes (base : Nat) (bytes : List Byte) : Memory.wf (Memory.ofBytes base bytes) = true := by
  rw [Memory.wf_iff]
  induction bytes generalizing base with
  | nil => exact List.Pairwise.nil
  | cons b bytes ih =>
    exact List.pairwise_cons.2 ⟨fun c hc => (Memory.mem_ofBytes hc).1, ih (base + 1)⟩

end Sys2Proof.Machine
end

