-- ==== Sys2Proof/Laws/Ops.lean ====
section
/-! SUPPORT. What each shared operation on the registers and the buffer can do, said once. -/

namespace Sys2Proof.Machine

/-- The register word of every fault (10_state.md R36 to R38, 60_exceptions.md R230). -/
theorem statusWord_code (c : Cause) :
    statusWord true c.code =
      match c with
      | .fieldTooWide => 0x03
      | .fieldEmpty => 0x05
      | .rangeOutsideBuffer => 0x07
      | .illegalCommand => 0x09 := by
  cases c <;> rfl

theorem raiseFault_halted (c : Cause) (s : State) : (raiseFault c s).Halted := by
  show (statusWord true c.code).getLsbD 0 = true
  cases c <;> decide

theorem raiseFault_statusLegal (c : Cause) (s : State) : (raiseFault c s).StatusLegal := by
  unfold State.StatusLegal
  rw [raiseFault_status]
  cases c <;> decide

theorem StatusLegal.not_reserved {s : State} (h : s.StatusLegal) : s.causeReserved = false := by
  unfold State.causeReserved State.causeField
  rcases h with h | h | h | h | h <;> rw [h] <;> decide

theorem StatusLegal.ready_iff {s : State} (h : s.StatusLegal) : s.Ready ↔ s.status = 0 := by
  unfold State.Ready State.faultBit
  rcases h with h | h | h | h | h <;> rw [h] <;> decide

/-- A ready machine with a legal `STATUS` accepts a command. -/
theorem acceptance_ready {s : State} (hl : s.StatusLegal) (hr : s.Ready) : acceptance s = none := by
  rw [acceptance, StatusLegal.not_reserved hl, if_neg (by decide), hr, if_neg (by decide)]

/-- A halted machine with a legal `STATUS` accepts none. -/
theorem acceptance_halted {s : State} (hl : s.StatusLegal) (hh : s.Halted) :
    acceptance s = some (.fault .halted) := by
  rw [acceptance, StatusLegal.not_reserved hl, if_neg (by decide), hh, if_pos rfl]

/-- A command is accepted only by a machine whose FAULT bit is 0. -/
theorem ready_of_acceptance {s : State} (h : acceptance s = none) : s.Ready := by
  unfold acceptance at h
  split at h
  · cases h
  · split at h
    · cases h
    · exact Bool.eq_false_iff.2 ‹_›

/-- Acceptance looks at `STATUS` alone. -/
theorem acceptance_congr {s t : State} (h : s.status = t.status) : acceptance s = acceptance t := by
  have hc : s.causeReserved = t.causeReserved := by rw [State.causeReserved, State.causeReserved, State.causeField, State.causeField, h]
  have hf : s.faultBit = t.faultBit := by rw [State.faultBit, State.faultBit, h]
  rw [acceptance, acceptance, hc, hf]

@[simp] theorem acceptance_setPort (s : State) (p : List PortEvent) : acceptance (s.setPort p) = acceptance s := rfl

@[simp] theorem acceptance_setRdata (s : State) (v : Option Word64) : acceptance (s.setRdata v) = acceptance s := rfl

@[simp] theorem acceptance_setBuf (s : State) (m : Memory) : acceptance (s.setBuf m) = acceptance s := rfl

theorem stop_outcome_ne_next (why : Stop) (t : State) : why.outcome ≠ .next t := by
  cases why <;> simp [Stop.outcome]

/-- A defined byte is what `BUF` lists there. -/
theorem readByte_eq_ok {s : State} {i : Nat} {b : Byte} :
    readByte s i = .ok b ↔ i < s.params.len ∧ s.buf.read i = some b := by
  unfold readByte
  split
  · split <;> simp_all
  · simp_all

theorem readByte_defined {s : State} (h : s.BufDefined) {i : Nat} (hi : i < s.params.len) :
    ∃ b, readByte s i = .ok b := by
  obtain ⟨b, hb⟩ := Option.isSome_iff_exists.1 (h i hi)
  exact ⟨b, readByte_eq_ok.2 ⟨hi, hb⟩⟩

theorem readByte_congr {s t : State} (hp : s.params = t.params) (i : Nat) (hb : s.buf.read i = t.buf.read i) :
    readByte s i = readByte t i := by
  rw [readByte, readByte, hp, hb]

/-- A byte write inside the buffer changes `BUF` alone, and there one byte. -/
theorem writeByte_of_lt {s : State} {i : Nat} (hi : i < s.params.len) (b : Byte) :
    writeByte s i b = .ok (s.setBuf (s.buf.write i b)) := if_pos hi

theorem writeByte_inv {s t : State} {i : Nat} {b : Byte} (h : writeByte s i b = .ok t) :
    i < s.params.len ∧ t = s.setBuf (s.buf.write i b) := by
  unfold writeByte at h
  split at h
  · exact ⟨‹_›, (Except.ok.inj h).symm⟩
  · cases h

theorem physIndex_lt {e : Endian} {len k : Nat} (h : k < len) : physIndex e len k < len := by
  cases e <;> (simp only [physIndex]; omega)

theorem physIndex_inj {e : Endian} {len j k : Nat} (hj : j < len) (hk : k < len) :
    physIndex e len j = physIndex e len k ↔ j = k := by
  cases e with
  | little => exact Iff.rfl
  | big => simp only [physIndex]; omega

/-- Each view is its own inverse. -/
theorem physIndex_physIndex {e : Endian} {len k : Nat} (h : k < len) : physIndex e len (physIndex e len k) = k := by
  cases e with
  | little => rfl
  | big => simp only [physIndex]; omega

theorem readLogical_of_lt {e : Endian} {s : State} {k : Nat} (hk : k < s.params.len) :
    readLogical e s k = readByte s (physIndex e s.params.len k) := if_pos hk

theorem readLogical_defined {e : Endian} {s : State} (h : s.BufDefined) {k : Nat} (hk : k < s.params.len) :
    ∃ b, readLogical e s k = .ok b := by
  rw [readLogical_of_lt hk]; exact readByte_defined h (physIndex_lt hk)

theorem writeLogical_of_lt {e : Endian} {s : State} {k : Nat} (hk : k < s.params.len) (b : Byte) :
    writeLogical e s k b = .ok (s.setBuf (s.buf.write (physIndex e s.params.len k) b)) := by
  rw [writeLogical, if_pos hk, writeByte_of_lt (physIndex_lt hk)]

theorem writeLogical_inv {e : Endian} {s t : State} {k : Nat} {b : Byte} (h : writeLogical e s k b = .ok t) :
    k < s.params.len ∧ t = s.setBuf (s.buf.write (physIndex e s.params.len k) b) := by
  unfold writeLogical at h
  split at h
  · exact ⟨‹_›, (writeByte_inv h).2⟩
  · cases h

theorem logicalByte_lt (e : Endian) (s : State) (k : Nat) : logicalByte e s k < 256 := by
  unfold logicalByte; split
  · exact BitVec.isLt _
  · decide

theorem logicalByte_beyond {e : Endian} {s : State} {k : Nat} (hk : s.params.len ≤ k) : logicalByte e s k = 0 := by
  rw [logicalByte, readLogical, if_neg (by omega)]

/-- The bits of a partial sum: those of the bytes it takes in. -/
theorem testBit_spanValue (e : Endian) (s : State) (start n i : Nat) :
    (spanValue e s start n).testBit i = (decide (i < 8 * n) && (logicalByte e s (start + i / 8)).testBit (i % 8)) := by
  have hlt : ∀ n, spanValue e s start n < 2 ^ (8 * n) := by
    intro n
    induction n with
    | zero => exact Nat.one_pos
    | succ n ih =>
      have hb := logicalByte_lt e s (start + n)
      have hmul : logicalByte e s (start + n) * 2 ^ (8 * n) ≤ 255 * 2 ^ (8 * n) := Nat.mul_le_mul_right _ (by omega)
      have hpow : (2 : Nat) ^ (8 * (n + 1)) = 256 * 2 ^ (8 * n) := by
        rw [Nat.mul_add, Nat.pow_add, Nat.mul_comm]
      rw [spanValue, hpow]
      omega
  induction n with
  | zero => simp [spanValue]
  | succ n ih =>
    rw [spanValue, Nat.mul_comm, Nat.add_comm, Nat.testBit_two_pow_mul_add _ (hlt n)]
    by_cases hi : i < 8 * n
    · rw [if_pos hi, ih, decide_eq_true hi, decide_eq_true (by omega)]
    · rw [if_neg hi]
      by_cases hi' : i < 8 * (n + 1)
      · rw [decide_eq_true hi', Bool.true_and, show i / 8 = n by omega, show i - 8 * n = i % 8 by omega]
      · rw [decide_eq_false hi', Bool.false_and]
        refine Nat.testBit_lt_two_pow ((logicalByte_lt e s _).trans_le ?_)
        rw [show (256 : Nat) = 2 ^ 8 from rfl]
        exact Nat.pow_le_pow_right (by decide) (by omega)

theorem spanValue_lt (e : Endian) (s : State) (start n : Nat) : spanValue e s start n < 2 ^ (8 * n) :=
  Nat.lt_pow_two_of_testBit _ fun i hi => by rw [testBit_spanValue, decide_eq_false (by omega), Bool.false_and]

/-- The bits of the whole buffer's number are its logical bits (20_memory.md R62). -/
theorem testBit_bufValue (e : Endian) (s : State) (i : Nat) : (bufValue e s).testBit i = logicalBit e s i := by
  rw [bufValue, testBit_spanValue, Nat.zero_add, logicalBit]
  by_cases hi : i < 8 * s.params.len
  · rw [decide_eq_true hi, Bool.true_and]
  · rw [decide_eq_false hi, logicalByte_beyond (by omega), Nat.zero_testBit, Bool.false_and]

/-- Logical bits beyond the buffer read as 0 (42_read.md R172). -/
theorem logicalBit_beyond {e : Endian} {s : State} {i : Nat} (hi : 8 * s.params.len ≤ i) : logicalBit e s i = false := by
  rw [logicalBit, logicalByte_beyond (by omega), Nat.zero_testBit]

end Sys2Proof.Machine
end

