-- ==== Sys2Proof/Laws/Resolver.lean ====
section
/-! SUPPORT. What the range resolver can answer (40_range_resolver.md R130), said once. -/

namespace Sys2Proof.Machine

theorem absStart_nonneg (b : Bound) : 0 ≤ absStart b := by
  cases b <;> (simp only [absStart, Config.unbStart]; omega)

/-- The tuple of an accepted range. -/
def spanOf (start stop : Bound) (len : Nat) : Span :=
  { startBit := (absStart start).toNat % 8
    totalBits := (totalBits start stop).toNat
    startByte := (absStart start).toNat / 8
    endByte := min ((absEnd stop).toNat / 8 + 1) len }

/-- The four answers of the resolver, each with its condition. -/
theorem resolve_cases (start stop : Bound) (len : Nat) :
    (64 < totalBits start stop ∧ resolve start stop len = .error .fieldTooWide) ∨
    (totalBits start stop < 1 ∧ resolve start stop len = .error .fieldEmpty) ∨
    (1 ≤ totalBits start stop ∧ totalBits start stop ≤ 64 ∧ (len : Int) < absStart start / 8 ∧
      resolve start stop len = .error .rangeOutsideBuffer) ∨
    (RangeAccepted start stop len ∧ resolve start stop len = .ok (spanOf start stop len)) := by
  have h0 := absStart_nonneg start
  unfold resolve
  by_cases h1 : 64 < totalBits start stop
  · exact .inl ⟨h1, if_pos h1⟩
  by_cases h2 : totalBits start stop < 1
  · exact .inr (.inl ⟨h2, by rw [if_neg h1, if_pos h2]⟩)
  by_cases h3 : len < (absStart start).toNat / 8
  · exact .inr (.inr (.inl ⟨by omega, by omega, by omega, by rw [if_neg h1, if_neg h2, if_pos h3]⟩))
  · exact .inr (.inr (.inr ⟨⟨by omega, by omega, by omega⟩, by rw [if_neg h1, if_neg h2, if_neg h3]; rfl⟩))

theorem resolve_accepted {start stop : Bound} {len : Nat} (h : RangeAccepted start stop len) :
    resolve start stop len = .ok (spanOf start stop len) := by
  obtain ⟨h1, h2, h3⟩ := h
  rcases resolve_cases start stop len with h | h | h | h <;> first | exact h.2 | (exfalso; omega)

theorem resolve_ok_inv {start stop : Bound} {len : Nat} {r : Span} (h : resolve start stop len = .ok r) :
    RangeAccepted start stop len ∧ r = spanOf start stop len := by
  rcases resolve_cases start stop len with hc | hc | hc | hc
  · rw [hc.2] at h; cases h
  · rw [hc.2] at h; cases h
  · rw [hc.2.2.2] at h; cases h
  · rw [hc.2] at h; exact ⟨hc.1, (Except.ok.inj h).symm⟩

/-- The tuple of an accepted range stays inside the buffer and inside the accumulator. -/
theorem spanOf_bounds {start stop : Bound} {len : Nat} (h : RangeAccepted start stop len) :
    let r := spanOf start stop len
    r.startBit < 8 ∧ 1 ≤ r.totalBits ∧ r.totalBits ≤ 64 ∧ r.startByte ≤ r.endByte ∧ r.endByte ≤ len ∧
      r.size ≤ 9 ∧ 8 * r.startByte + r.startBit = (absStart start).toNat ∧
      (r.startBit + r.totalBits ≤ 8 * r.size ∨ r.endByte = len) := by
  obtain ⟨h1, h2, h3⟩ := h
  have h0 := absStart_nonneg start
  unfold totalBits at *
  simp only [spanOf, Span.size, totalBits]
  omega

end Sys2Proof.Machine
end

