-- ==== Sys2Proof/Laws/Assembler.lean ====
section
/-! SUPPORT. What assembly and disassembly do, bit by bit and byte by byte (41_byte_assembler.md). -/

namespace Sys2Proof.Machine

/-- Assembly inside a defined buffer succeeds, and bit `i` of the accumulator is logical bit `8*start + i`. -/
theorem assemble_spec {e : Endian} {s : State} (hd : s.BufDefined) {start n : Nat} (hn : start + n ≤ s.params.len) :
    ∃ acc, assemble e s start n = .ok acc ∧
      ∀ i, acc.getLsbD i = (decide (i < 128) && decide (i < 8 * n) && logicalBit e s (8 * start + i)) := by
  induction n with
  | zero => exact ⟨0, rfl, fun i => by simp⟩
  | succ n ih =>
    obtain ⟨acc, hacc, hbits⟩ := ih (by omega)
    obtain ⟨b, hb⟩ := readLogical_defined (e := e) hd (k := start + n) (by omega)
    refine ⟨_, by rw [assemble, hacc]; simp only [hb]; rfl, fun i => ?_⟩
    have hbyte : logicalByte e s (start + n) = b.toNat := by rw [logicalByte, hb]
    rw [BitVec.getLsbD_or, hbits, BitVec.getLsbD_shiftLeft, BitVec.getLsbD_setWidth]
    by_cases h128 : i < 128
    · by_cases hlo : i < 8 * n
      · simp [h128, hlo, show i < 8 * (n + 1) by omega]
      · by_cases hhi : i < 8 * (n + 1)
        · have hbit : logicalBit e s (8 * start + i) = b.getLsbD (i - 8 * n) := by
            rw [logicalBit, show (8 * start + i) / 8 = start + n by omega, hbyte,
              show (8 * start + i) % 8 = i - 8 * n by omega]
            rfl
          simp [h128, hlo, hhi, hbit, show i - 8 * n < 128 by omega]
        · have : b.getLsbD (i - 8 * n) = false := BitVec.getLsbD_of_ge _ _ (by omega)
          simp [h128, hlo, hhi, this]
    · simp [h128]

/-- Disassembly inside the buffer succeeds, changes `BUF` alone, keeps its form, gives the logical bytes of the span
the accumulator's bytes, and leaves every physical byte that is not one of them. -/
theorem disassemble_spec {e : Endian} {s : State} {start n : Nat} (acc : AccWord) (hn : start + n ≤ s.params.len) :
    ∃ m, disassemble e s start acc n = .ok (s.setBuf m) ∧
      (Memory.wf s.buf = true → Memory.wf m = true) ∧
      (∀ c ∈ m, c.1 < s.params.len ∨ c ∈ s.buf) ∧
      (∀ j, j < n → m.read (physIndex e s.params.len (start + j)) = some (acc.extractLsb' (8 * j) 8)) ∧
      (∀ a, (∀ j, j < n → a ≠ physIndex e s.params.len (start + j)) → m.read a = s.buf.read a) := by
  induction n with
  | zero => exact ⟨s.buf, rfl, id, fun c hc => .inr hc, fun j hj => by omega, fun a _ => rfl⟩
  | succ n ih =>
    obtain ⟨m, hm, hwf, hin, hspan, hout⟩ := ih (by omega)
    refine ⟨m.write (physIndex e s.params.len (start + n)) (acc.extractLsb' (8 * n) 8), ?_,
      fun h => Memory.wf_write (hwf h) _ _, fun c hc => ?_, fun j hj => ?_, fun a ha => ?_⟩
    · rw [disassemble, hm]
      exact writeLogical_of_lt (s := s.setBuf m) (show start + n < s.params.len by omega) _
    · rcases Memory.mem_write hc with rfl | hc
      · exact .inl (physIndex_lt (by omega))
      · exact hin c hc
    · rw [Memory.read_write]
      by_cases hjn : j = n
      · subst hjn; rw [if_pos rfl]
      · rw [if_neg ((physIndex_inj (by omega) (by omega)).not.2 (by omega)), hspan j (by omega)]
    · rw [Memory.read_write, if_neg (ha n (by omega)), hout a fun j hj => ha j (by omega)]

end Sys2Proof.Machine
end

