-- ==== Sys2Proof/Laws/Engines.lean ====
section
/-! SUPPORT. What the read engine and the write engine can answer, said once (42_read.md R160, 43_write.md R190), and
the meaning of a command through its shape. -/

namespace Sys2Proof.Machine

/-- Bit `i` of `total_bits` ones (42_read.md R161). -/
theorem getLsbD_onesMask {total : Nat} (h : total < 128) (i : Nat) :
    (onesMask total).getLsbD i = decide (i < total) := by
  have hpow : (2 : Nat) ^ total < 2 ^ 128 := Nat.pow_lt_pow_right (by decide) h
  have hpos : 0 < (2 : Nat) ^ total := Nat.two_pow_pos _
  have hval : (onesMask total).toNat = 2 ^ total - 1 := by
    have hs : (1#128 <<< total).toNat = 2 ^ total := by
      rw [BitVec.toNat_shiftLeft, Nat.shiftLeft_eq]
      simpa using Nat.mod_eq_of_lt hpow
    rw [onesMask, BitVec.toNat_sub_of_le (by rw [BitVec.le_def, hs]; exact hpos), hs]
    rfl
  rw [← BitVec.testBit_toNat, hval, Nat.testBit_two_pow_sub_one]

/-- Bit `i` of the field: accumulator bit `start_bit + i`, inside the field (42_read.md R160). -/
theorem getLsbD_fieldOf {r : Span} (ht : r.totalBits ≤ 64) (acc : AccWord) (i : Nat) :
    (fieldOf r acc).getLsbD i = (decide (i < r.totalBits) && acc.getLsbD (r.startBit + i)) := by
  rw [fieldOf, BitVec.getLsbD_setWidth, BitVec.getLsbD_and, BitVec.getLsbD_ushiftRight,
    getLsbD_onesMask (by omega), Bool.and_comm (acc.getLsbD _)]
  by_cases hi : i < r.totalBits
  · rw [decide_eq_true (show i < 64 by omega), Bool.true_and]
  · rw [decide_eq_false hi, Bool.false_and, Bool.and_false]

/-- Bit `i` of the read result: the field's low bits, zeros above (42_read.md R162). -/
theorem getLsbD_readResult {r : Span} (ht : r.totalBits ≤ 64) (w : Width) (acc : AccWord) (i : Nat) :
    (readResult w r acc).getLsbD i =
      (decide (i < widthBits w) && (decide (i < r.totalBits) && acc.getLsbD (r.startBit + i))) := by
  rw [readResult, BitVec.getLsbD_setWidth, BitVec.getLsbD_setWidth, getLsbD_fieldOf ht]
  have hw : widthBits w ≤ 64 := by cases w <;> decide
  by_cases hi : i < widthBits w
  · rw [decide_eq_true (show i < 64 by omega), Bool.true_and]
  · rw [decide_eq_false hi, Bool.false_and, Bool.and_false]

/-- Bit `i` of the merged accumulator: the value inside the field, the old accumulator outside (43_write.md R192). -/
theorem getLsbD_mergeField {r : Span} (hs : r.startBit < 8) (ht : r.totalBits ≤ 64) (value : Word64) (acc : AccWord) (i : Nat) :
    (mergeField r value acc).getLsbD i =
      if r.startBit ≤ i ∧ i < r.startBit + r.totalBits then value.getLsbD (i - r.startBit) else acc.getLsbD i := by
  have hmask : (writeMask r).getLsbD i = decide (r.startBit ≤ i ∧ i < r.startBit + r.totalBits) := by
    rw [writeMask, BitVec.getLsbD_shiftLeft, getLsbD_onesMask (by omega), ← decide_not, ← Bool.decide_and, ← Bool.decide_and]
    exact decide_eq_decide.2 (by omega)
  rw [mergeField, BitVec.getLsbD_or, BitVec.getLsbD_and, BitVec.getLsbD_and, BitVec.getLsbD_not, hmask,
    BitVec.getLsbD_shiftLeft, BitVec.getLsbD_setWidth]
  by_cases h : r.startBit ≤ i ∧ i < r.startBit + r.totalBits
  · have h64 : i - r.startBit < 128 := by omega
    simp [h, h64, show i < 128 by omega, show ¬i < r.startBit by omega]
  · rw [if_neg h, decide_eq_false h]
    by_cases h128 : i < 128
    · simp [h128]
    · simp [h128, BitVec.getLsbD_of_ge acc i (by omega)]

/-- A next state of the read engine: a ready machine, and either a fault taken or `RDATA` alone written. -/
theorem readCmd_inv {e : Endian} {w : Width} {start stop : Bound} {s t : State} (h : readCmd e w start stop s = .next t) :
    s.Ready ∧
      ((∃ c, resolve start stop s.params.len = .error c ∧ t = raiseFault c s) ∨
       (∃ r acc, resolve start stop s.params.len = .ok r ∧ assemble e s r.startByte r.size = .ok acc ∧
          t = s.setRdata (some (readResult w r acc)))) := by
  unfold readCmd at h
  split at h
  · exact absurd h (stop_outcome_ne_next _ _)
  · rename_i ha
    refine ⟨ready_of_acceptance ha, ?_⟩
    split at h
    · exact .inl ⟨_, ‹_›, (Host.Outcome.next.inj h).symm⟩
    · split at h
      · exact absurd h (stop_outcome_ne_next _ _)
      · exact .inr ⟨_, _, ‹_›, ‹_›, (Host.Outcome.next.inj h).symm⟩

/-- A next state of the write engine: a ready machine, and either a fault taken or the span of `BUF` alone written. -/
theorem writeCmd_inv {e : Endian} {w : Width} {start stop : Bound} {wdata : Word64} {s t : State}
    (h : writeCmd e w start stop wdata s = .next t) :
    s.Ready ∧
      ((∃ c, resolve start stop s.params.len = .error c ∧ t = raiseFault c s) ∨
       (∃ r acc, resolve start stop s.params.len = .ok r ∧ assemble e s r.startByte r.size = .ok acc ∧
          disassemble e s r.startByte (mergeField r (writeValue s.params.i32Ext w wdata) acc) r.size = .ok t)) := by
  unfold writeCmd at h
  split at h
  · exact absurd h (stop_outcome_ne_next _ _)
  · rename_i ha
    refine ⟨ready_of_acceptance ha, ?_⟩
    split at h
    · exact .inl ⟨_, ‹_›, (Host.Outcome.next.inj h).symm⟩
    · split at h
      · exact absurd h (stop_outcome_ne_next _ _)
      · split at h
        · exact absurd h (stop_outcome_ne_next _ _)
        · cases h; exact .inr ⟨_, _, ‹_›, ‹_›, ‹_›⟩

/-- The engine that a shape selects (30_encoding.md R92). -/
def runShape (x : Shape) (s : State) : Result :=
  match x.op with
  | .read => readCmd x.endian x.width x.start x.stop s
  | .write => writeCmd x.endian x.width x.start x.stop x.wdata s

/-- Every command runs the engine of its row with its row's directionality and width (30_encoding.md R99). -/
theorem exec_eq_runShape (i : Instr) (s : State) : exec i s = runShape i.shape s := by
  cases i <;> rfl

end Sys2Proof.Machine
end

