-- ==== Sys2Proof/Laws/Completion.lean ====
section
/-! SUPPORT. The engines on an accepted range: they answer a next state, and which (42_read.md R160, 43_write.md R190). -/

namespace Sys2Proof.Machine

theorem logicalBit_congr {e : Endian} {s t : State} {i : Nat} (hp : t.params = s.params)
    (h : i / 8 < s.params.len → t.buf.read (physIndex e s.params.len (i / 8)) = s.buf.read (physIndex e s.params.len (i / 8))) :
    logicalBit e t i = logicalBit e s i := by
  by_cases hi : i / 8 < s.params.len
  · rw [logicalBit, logicalBit, logicalByte, logicalByte, readLogical_of_lt hi, readLogical_of_lt (hp ▸ hi), hp,
      readByte_congr hp _ (h hi)]
  · rw [logicalBit_beyond (s := t) (by rw [hp]; omega), logicalBit_beyond (by omega)]

/-- An accepted read answers: `RDATA` alone changes, and bit `j` of it is logical bit `abs_start + j`, inside the
field and inside the output width; bits beyond the buffer read as 0 (42_read.md R160, R172). -/
theorem readCmd_accepted {e : Endian} {w : Width} {a b : Bound} {s : State} (hi : s.Inv) (hr : s.Ready)
    (ha : RangeAccepted a b s.params.len) :
    ∃ v, readCmd e w a b s = .next (s.setRdata (some v)) ∧
      ∀ j, v.getLsbD j = (decide (j < widthBits w) && (decide (j < (totalBits a b).toNat) &&
        logicalBit e s ((absStart a).toNat + j))) := by
  obtain ⟨-, -, hd, hl⟩ := hi
  obtain ⟨b1, b2, b3, b4, b5, b6, b7, b8⟩ := spanOf_bounds ha
  obtain ⟨acc, hacc, hbits⟩ := assemble_spec (e := e) (n := (spanOf a b s.params.len).size) hd
    (start := (spanOf a b s.params.len).startByte) (by unfold Span.size; omega)
  refine ⟨_, by rw [readCmd, acceptance_ready hl hr]; simp only [resolve_accepted ha, hacc]; rfl, fun j => ?_⟩
  rw [getLsbD_readResult b3, hbits]
  show (decide (j < widthBits w) && (decide (j < (totalBits a b).toNat) && _)) = _
  by_cases hj : j < (totalBits a b).toNat
  · rw [decide_eq_true hj, Bool.true_and, Bool.true_and]
    have hj' : j < (spanOf a b s.params.len).totalBits := hj
    rw [← b7, decide_eq_true (show (spanOf a b s.params.len).startBit + j < 128 by omega), Bool.true_and, ← Nat.add_assoc]
    by_cases hin : (spanOf a b s.params.len).startBit + j < 8 * (spanOf a b s.params.len).size
    · rw [decide_eq_true hin, Bool.true_and]
    · rw [decide_eq_false hin, Bool.false_and, logicalBit_beyond]
      unfold Span.size at *
      omega
  · rw [decide_eq_false hj, Bool.false_and, Bool.false_and]

/-- An accepted write answers: `BUF` alone changes and keeps its form; the field holds the value, and every other bit
and every byte outside the span is as before (43_write.md R205). -/
theorem writeCmd_accepted {e : Endian} {w : Width} {a b : Bound} {v : Word64} {s : State} (hi : s.Inv) (hr : s.Ready)
    (ha : RangeAccepted a b s.params.len) :
    ∃ m, writeCmd e w a b v s = .next (s.setBuf m) ∧ (s.setBuf m).Inv ∧
      (∀ i, i < 8 * s.params.len → logicalBit e (s.setBuf m) i =
        if InField a b i then (writeValue s.params.i32Ext w v).getLsbD (i - (absStart a).toNat) else logicalBit e s i) ∧
      (∀ x, x ∉ spanIndices e s.params.len (spanOf a b s.params.len) → m.read x = s.buf.read x) := by
  obtain ⟨hwf, hbd, hd, hl⟩ := hi
  obtain ⟨b1, b2, b3, b4, b5, b6, b7, b8⟩ := spanOf_bounds ha
  have h0 := absStart_nonneg a
  have htb : ((spanOf a b s.params.len).totalBits : Int) = absEnd b - absStart a + 1 := by
    obtain ⟨h1, -, -⟩ := ha
    simp only [spanOf, totalBits] at *
    omega
  have hres := resolve_accepted ha
  generalize spanOf a b s.params.len = r at *
  have hle : r.startByte + r.size ≤ s.params.len := by unfold Span.size; omega
  obtain ⟨acc, hacc, hbits⟩ := assemble_spec (e := e) hd hle
  obtain ⟨m, hm, hmwf, hmin, hspan, hout⟩ :=
    disassemble_spec (e := e) (mergeField r (writeValue s.params.i32Ext w v) acc) hle
  have hframe : ∀ x, x ∉ spanIndices e s.params.len r → m.read x = s.buf.read x := fun x hx =>
    hout x fun j hj heq => hx (List.mem_map.2 ⟨j, List.mem_range.2 hj, heq.symm⟩)
  refine ⟨m, by rw [writeCmd, acceptance_ready hl hr]; simp only [hres, hacc, hm],
    ⟨hmwf hwf, fun c hc => (hmin c hc).elim id (hbd c), fun x hx => ?_, hl⟩, fun i hilt => ?_, hframe⟩
  · show (m.read x).isSome = true
    by_cases hmem : x ∈ spanIndices e s.params.len r
    · obtain ⟨j, hj, rfl⟩ := List.mem_map.1 hmem
      rw [hspan j (List.mem_range.1 hj)]
      rfl
    · rw [hframe x hmem]
      exact hd x hx
  · by_cases hin : r.startByte ≤ i / 8 ∧ i / 8 < r.startByte + r.size
    · have hread : readLogical e (s.setBuf m) (i / 8) =
          .ok ((mergeField r (writeValue s.params.i32Ext w v) acc).extractLsb' (8 * (i / 8 - r.startByte)) 8) := by
        rw [readLogical_of_lt (s := s.setBuf m) (show i / 8 < s.params.len by omega)]
        refine readByte_eq_ok.2 ⟨physIndex_lt (show i / 8 < s.params.len by omega), ?_⟩
        have := hspan (i / 8 - r.startByte) (by omega)
        rwa [show r.startByte + (i / 8 - r.startByte) = i / 8 by omega] at this
      have hbit : logicalBit e (s.setBuf m) i =
          (mergeField r (writeValue s.params.i32Ext w v) acc).getLsbD (i - 8 * r.startByte) := by
        rw [logicalBit, logicalByte, hread]
        show BitVec.getLsbD _ _ = _
        rw [BitVec.getLsbD_extractLsb', decide_eq_true (Nat.mod_lt _ (by decide)), Bool.true_and,
          show 8 * (i / 8 - r.startByte) + i % 8 = i - 8 * r.startByte by omega]
      rw [hbit, getLsbD_mergeField b1 b3, hbits]
      by_cases hf : InField a b i
      · obtain ⟨hf1, hf2⟩ := hf
        rw [if_pos ⟨by omega, by omega⟩, if_pos ⟨hf1, hf2⟩, show i - 8 * r.startByte - r.startBit = i - (absStart a).toNat by omega]
      · rw [if_neg (fun h => hf ⟨by omega, by omega⟩), if_neg hf, decide_eq_true (by omega), decide_eq_true (by omega),
          Bool.true_and, Bool.true_and, show 8 * r.startByte + (i - 8 * r.startByte) = i by omega]
    · have hnf : ¬ InField a b i := fun ⟨h1, h2⟩ => hin (by unfold Span.size at *; omega)
      rw [if_neg hnf]
      refine logicalBit_congr rfl fun hlt => hout _ fun j hj => ?_
      exact fun heq => hin (by have := (physIndex_inj hlt (by omega)).1 heq; omega)

/-- A range fault is taken by either engine before any byte is touched (60_exceptions.md R237). -/
theorem runShape_fault {x : Shape} {s : State} {c : Cause} (hl : s.StatusLegal) (hr : s.Ready)
    (h : resolve x.start x.stop s.params.len = .error c) : runShape x s = .next (raiseFault c s) := by
  unfold runShape
  cases x.op
  · simp only [readCmd, acceptance_ready hl hr, h]
  · simp only [writeCmd, acceptance_ready hl hr, h]

/-- Two buffers of one launch with the same logical bits are the same buffer. -/
theorem buf_eq_of_bits {e : Endian} {s t : State} (hs : s.Inv) (ht : t.Inv) (hp : t.params = s.params)
    (h : ∀ i, i < 8 * s.params.len → logicalBit e t i = logicalBit e s i) : t.buf = s.buf := by
  refine Memory.ext_read ht.1 hs.1 fun x => ?_
  by_cases hx : x < s.params.len
  · obtain ⟨p, hpv⟩ := Option.isSome_iff_exists.1 (hs.2.2.1 x hx)
    obtain ⟨q, hqv⟩ := Option.isSome_iff_exists.1 (ht.2.2.1 x (hp ▸ hx))
    rw [hpv, hqv]
    congr 1
    refine BitVec.eq_of_getLsbD_eq fun j hj => ?_
    have hk : physIndex e s.params.len x < s.params.len := physIndex_lt hx
    have hb := h (8 * physIndex e s.params.len x + j) (by omega)
    rw [logicalBit, logicalBit, logicalByte, logicalByte,
      show (8 * physIndex e s.params.len x + j) / 8 = physIndex e s.params.len x by omega,
      show (8 * physIndex e s.params.len x + j) % 8 = j by omega, readLogical_of_lt hk, readLogical_of_lt (hp ▸ hk), hp,
      physIndex_physIndex hx, readByte_eq_ok.2 ⟨hx, hpv⟩, readByte_eq_ok.2 ⟨hp ▸ hx, hqv⟩] at hb
    exact hb
  · have hnone : ∀ u : State, u.BufBounded → u.params = s.params → u.buf.read x = none := fun u hu hup => by
      rcases hr : u.buf.read x with _ | y
      · rfl
      · exact absurd (hup ▸ hu _ (Memory.mem_of_read hr)) hx
    rw [hnone s hs.2.1 rfl, hnone t ht.2.1 hp]

end Sys2Proof.Machine
end

