-- ==== Sys2Proof/Laws/Decode.lean ====
section
/-! SUPPORT. The field tables of the decoder and the encoder, each read back by the other (30_encoding.md R91 to R99). -/

namespace Sys2Proof

theorem Bound.index_lt {idxW : Nat} {b : Bound} (h : b.fits idxW = true) : b.index < 2 ^ idxW := by
  cases b with
  | included idx => exact of_decide_eq_true h
  | excluded idx => exact of_decide_eq_true h
  | unbounded => exact Nat.two_pow_pos _

theorem Bound.kind_lt (b : Bound) : b.kind < 3 := by cases b <;> simp [Bound.kind]

theorem decodeWidth_code (w : Width) : decodeWidth (BitVec.ofNat 3 w.code) = some w := by cases w <;> rfl

theorem decodeBound_kind (b : Bound) : decodeBound (BitVec.ofNat 2 b.kind) b.index = some b := by cases b <;> rfl

/-- The row of a shape; a read row keeps no value word. -/
theorem rowOf_shape (i : Instr) :
    rowOf i.shape.op i.shape.endian i.shape.width i.shape.start i.shape.stop i.shape.wdata = .ok i := by
  cases i <;> rfl

/-- What a row that decoding finds looks like: exactly the fields it was found by. -/
theorem shape_of_rowOf {op : Op} {e : Endian} {w : Width} {start stop : Bound} {wdata : Word64} {i : Instr}
    (h : rowOf op e w start stop wdata = .ok i) :
    i.shape = ⟨op, e, w, start, stop, if op = .write then wdata else 0⟩ := by
  cases op <;> cases e <;> cases w <;> first | (cases Except.ok.inj h; rfl) | cases h

/-- What a transaction that decodes looks like: no reserved bit, and the fields of its command. -/
theorem decode_inv {t : Transaction} {i : Instr} (h : decode t = .ok i) :
    fieldRsvd t.cmd = 0 ∧ decodeWidth (fieldWidth t.cmd) = some i.shape.width ∧
      decodeBound (fieldSkind t.cmd) t.sidx = some i.shape.start ∧
      decodeBound (fieldEkind t.cmd) t.eidx = some i.shape.stop ∧
      fieldOp t.cmd = i.shape.op ∧ fieldEnd t.cmd = i.shape.endian ∧
      i.shape.wdata = if i.shape.op = .write then t.wdata else 0 := by
  unfold decode at h
  split at h
  · cases h
  · rename_i hr
    split at h
    · cases h
    · rename_i w hw
      split at h
      · cases h
      · rename_i a ha
        split at h
        · cases h
        · rename_i b hb
          rw [shape_of_rowOf h]
          exact ⟨Decidable.not_not.1 hr, hw, ha, hb, rfl, rfl, rfl⟩

end Sys2Proof
end

