-- ==== Sys2Proof/Laws/PerInstr.lean ====
section
/-! SUPPORT. Facts about every command as syntax, one lemma per constructor. -/

namespace Sys2Proof.Laws

/-- A well-formed command is encoded with both indices inside their `IDX_W`-bit ports (00_scope.md R10). -/
def EncodedIndicesFit.Statement (i : Instr) : Prop :=
  ∀ p : Params, i.wf p = true → (encode i).sidx < 2 ^ p.idxW ∧ (encode i).eidx < 2 ^ p.idxW

/-- The fact for every command at once, from the shape alone. -/
theorem EncodedIndicesFit.of_shape (i : Instr) : EncodedIndicesFit.Statement i := fun _ h =>
  let ⟨hs, he⟩ := Bool.and_eq_true_iff.1 h
  ⟨Bound.index_lt hs, Bound.index_lt he⟩

theorem EncodedIndicesFit.rdleU8 (start stop : Bound) :
    EncodedIndicesFit.Statement (.rdleU8 start stop) := EncodedIndicesFit.of_shape _

theorem EncodedIndicesFit.rdleU16 (start stop : Bound) :
    EncodedIndicesFit.Statement (.rdleU16 start stop) := EncodedIndicesFit.of_shape _

theorem EncodedIndicesFit.rdleU32 (start stop : Bound) :
    EncodedIndicesFit.Statement (.rdleU32 start stop) := EncodedIndicesFit.of_shape _

theorem EncodedIndicesFit.rdleU64 (start stop : Bound) :
    EncodedIndicesFit.Statement (.rdleU64 start stop) := EncodedIndicesFit.of_shape _

theorem EncodedIndicesFit.rdbeU8 (start stop : Bound) :
    EncodedIndicesFit.Statement (.rdbeU8 start stop) := EncodedIndicesFit.of_shape _

theorem EncodedIndicesFit.rdbeU16 (start stop : Bound) :
    EncodedIndicesFit.Statement (.rdbeU16 start stop) := EncodedIndicesFit.of_shape _

theorem EncodedIndicesFit.rdbeU32 (start stop : Bound) :
    EncodedIndicesFit.Statement (.rdbeU32 start stop) := EncodedIndicesFit.of_shape _

theorem EncodedIndicesFit.rdbeU64 (start stop : Bound) :
    EncodedIndicesFit.Statement (.rdbeU64 start stop) := EncodedIndicesFit.of_shape _

theorem EncodedIndicesFit.wrleU8 (start stop : Bound) (wdata : Word64) :
    EncodedIndicesFit.Statement (.wrleU8 start stop wdata) := EncodedIndicesFit.of_shape _

theorem EncodedIndicesFit.wrleU16 (start stop : Bound) (wdata : Word64) :
    EncodedIndicesFit.Statement (.wrleU16 start stop wdata) := EncodedIndicesFit.of_shape _

theorem EncodedIndicesFit.wrleU32 (start stop : Bound) (wdata : Word64) :
    EncodedIndicesFit.Statement (.wrleU32 start stop wdata) := EncodedIndicesFit.of_shape _

theorem EncodedIndicesFit.wrleU64 (start stop : Bound) (wdata : Word64) :
    EncodedIndicesFit.Statement (.wrleU64 start stop wdata) := EncodedIndicesFit.of_shape _

theorem EncodedIndicesFit.wrleI32 (start stop : Bound) (wdata : Word64) :
    EncodedIndicesFit.Statement (.wrleI32 start stop wdata) := EncodedIndicesFit.of_shape _

theorem EncodedIndicesFit.wrbeU8 (start stop : Bound) (wdata : Word64) :
    EncodedIndicesFit.Statement (.wrbeU8 start stop wdata) := EncodedIndicesFit.of_shape _

theorem EncodedIndicesFit.wrbeU16 (start stop : Bound) (wdata : Word64) :
    EncodedIndicesFit.Statement (.wrbeU16 start stop wdata) := EncodedIndicesFit.of_shape _

theorem EncodedIndicesFit.wrbeU32 (start stop : Bound) (wdata : Word64) :
    EncodedIndicesFit.Statement (.wrbeU32 start stop wdata) := EncodedIndicesFit.of_shape _

theorem EncodedIndicesFit.wrbeU64 (start stop : Bound) (wdata : Word64) :
    EncodedIndicesFit.Statement (.wrbeU64 start stop wdata) := EncodedIndicesFit.of_shape _

theorem EncodedIndicesFit.wrbeI32 (start stop : Bound) (wdata : Word64) :
    EncodedIndicesFit.Statement (.wrbeI32 start stop wdata) := EncodedIndicesFit.of_shape _

end Sys2Proof.Laws
end

