-- ==== Sys2Proof/Laws/Step.lean ====
section
/-! SUPPORT. What a step can do, said once. -/

namespace Sys2Proof.Machine

/-- A next state of an offered command: a ready machine, and either ILLEGAL_COMMAND taken or the command run. -/
theorem offerCommand_inv {tx : Transaction} {foreign : List Nat} {s t : State} (h : offerCommand tx foreign s = .next t) :
    s.Ready ∧
      ((∃ why, decode tx = .error why ∧ t = raiseFault .illegalCommand s) ∨
       (∃ i, decode tx = .ok i ∧ i.wf s.params = true ∧ races i s.params.len foreign = false ∧ exec i s = .next t)) := by
  unfold offerCommand at h
  split at h
  · exact absurd h (stop_outcome_ne_next _ _)
  · rename_i ha
    refine ⟨ready_of_acceptance ha, ?_⟩
    split at h
    · exact .inl ⟨_, ‹_›, (Host.Outcome.next.inj h).symm⟩
    · split at h
      · split at h
        · cases h
        · exact .inr ⟨_, ‹_›, ‹_›, by simp_all, h⟩
      · cases h

/-- A next state of a step: idle, a reset, or a command offered. -/
theorem step_inv {s t : State} (h : step s = .next t) :
    (s.port = [] ∧ t = s) ∨
    (∃ rest, s.port = .reset :: rest ∧ t = assertReset (s.setPort rest)) ∨
    (∃ tx foreign rest, s.port = .command tx foreign :: rest ∧ offerCommand tx foreign (s.setPort rest) = .next t) := by
  unfold step portStep at h
  split at h
  · exact .inl ⟨‹_›, (Host.Outcome.next.inj h).symm⟩
  · exact .inr (.inl ⟨_, ‹_›, (Host.Outcome.next.inj h).symm⟩)
  · exact .inr (.inr ⟨_, _, _, ‹_›, h⟩)

end Sys2Proof.Machine
end

