-- ==== Sys2Proof/Tests/Slice0.lean ====
section
/-! SUPPORT. The model's own tests. Expected values come from spec/: the encodings of 30_encoding.md and the vectors of
95_test_vectors.md, by section. After them, one witness for the hypotheses of each obligation. -/

namespace Sys2Proof.Tests

open Sys2Proof.Machine

/-- A launch of these bytes (`IDX_W = 64`) with one command on the port. -/
def oneCommand (bytes : List Byte) (ext : I32Ext) (cmd : CmdWord) (sidx eidx : Nat) (wdata : Word64) : State :=
  State.launch bytes 64 ext [.command ⟨cmd, sidx, eidx, wdata⟩ []]

/-- The next state of an outcome, if it has one. -/
def nextOf : Result → Option State
  | .next t => some t
  | _ => none

def rdataAfter (s : State) : Option (Option Word64) := (nextOf (step s)).map State.rdata

def bufAfter (s : State) : Option Memory := (nextOf (step s)).map State.buf

def statusAfter (s : State) : Option (BitVec 8) := (nextOf (step s)).map State.status

/-! ## Well-formedness: one ill-formed term for each check (00_scope.md R10) -/

theorem test_wf_rejects_wide_start : (Instr.rdleU8 (.included 256) .unbounded).wf ⟨4, 8, .sign⟩ = false := by decide

theorem test_wf_rejects_wide_excluded_start : (Instr.rdleU8 (.excluded 256) .unbounded).wf ⟨4, 8, .sign⟩ = false := by decide

theorem test_wf_rejects_wide_end : (Instr.wrbeI32 .unbounded (.included 256) 0).wf ⟨4, 8, .sign⟩ = false := by decide

theorem test_wf_rejects_wide_excluded_end : (Instr.wrbeI32 .unbounded (.excluded 256) 0).wf ⟨4, 8, .sign⟩ = false := by decide

theorem test_wf_accepts_widest : (Instr.rdleU8 (.included 255) (.excluded 255)).wf ⟨4, 8, .sign⟩ = true := by decide

/-! ## Decoding: each row's word written out from 30_encoding.md R91 (`RSVD EKIND SKIND WIDTH END OP`) and R99 -/

theorem test_decode_rdleU8 :
    decode ⟨0b0000000010000000, 9, 41, 0xABCD⟩ = .ok (.rdleU8 (.included 9) (.excluded 41)) := by decide

theorem test_decode_rdleU16 :
    decode ⟨0b0000000010100100, 9, 41, 0xABCD⟩ = .ok (.rdleU16 (.excluded 9) (.excluded 41)) := by decide

theorem test_decode_rdleU32 :
    decode ⟨0b0000000011001000, 9, 41, 0xABCD⟩ = .ok (.rdleU32 .unbounded (.excluded 41)) := by decide

theorem test_decode_rdleU64 :
    decode ⟨0b0000000100001100, 9, 41, 0xABCD⟩ = .ok (.rdleU64 (.included 9) .unbounded) := by decide

theorem test_decode_rdbeU8 :
    decode ⟨0b0000000100100010, 9, 41, 0xABCD⟩ = .ok (.rdbeU8 (.excluded 9) .unbounded) := by decide

theorem test_decode_rdbeU16 :
    decode ⟨0b0000000101000110, 9, 41, 0xABCD⟩ = .ok (.rdbeU16 .unbounded .unbounded) := by decide

theorem test_decode_rdbeU32 :
    decode ⟨0b0000000000001010, 9, 41, 0xABCD⟩ = .ok (.rdbeU32 (.included 9) (.included 41)) := by decide

theorem test_decode_rdbeU64 :
    decode ⟨0b0000000000101110, 9, 41, 0xABCD⟩ = .ok (.rdbeU64 (.excluded 9) (.included 41)) := by decide

theorem test_decode_wrleU8 :
    decode ⟨0b0000000001000001, 9, 41, 0xABCD⟩ = .ok (.wrleU8 .unbounded (.included 41) 0xABCD) := by decide

theorem test_decode_wrleU16 :
    decode ⟨0b0000000010000101, 9, 41, 0xABCD⟩ = .ok (.wrleU16 (.included 9) (.excluded 41) 0xABCD) := by decide

theorem test_decode_wrleU32 :
    decode ⟨0b0000000010101001, 9, 41, 0xABCD⟩ = .ok (.wrleU32 (.excluded 9) (.excluded 41) 0xABCD) := by decide

theorem test_decode_wrleU64 :
    decode ⟨0b0000000011001101, 9, 41, 0xABCD⟩ = .ok (.wrleU64 .unbounded (.excluded 41) 0xABCD) := by decide

theorem test_decode_wrleI32 :
    decode ⟨0b0000000100010001, 9, 41, 0xABCD⟩ = .ok (.wrleI32 (.included 9) .unbounded 0xABCD) := by decide

theorem test_decode_wrbeU8 :
    decode ⟨0b0000000100100011, 9, 41, 0xABCD⟩ = .ok (.wrbeU8 (.excluded 9) .unbounded 0xABCD) := by decide

theorem test_decode_wrbeU16 :
    decode ⟨0b0000000101000111, 9, 41, 0xABCD⟩ = .ok (.wrbeU16 .unbounded .unbounded 0xABCD) := by decide

theorem test_decode_wrbeU32 :
    decode ⟨0b0000000000001011, 9, 41, 0xABCD⟩ = .ok (.wrbeU32 (.included 9) (.included 41) 0xABCD) := by decide

theorem test_decode_wrbeU64 :
    decode ⟨0b0000000000101111, 9, 41, 0xABCD⟩ = .ok (.wrbeU64 (.excluded 9) (.included 41) 0xABCD) := by decide

theorem test_decode_wrbeI32 :
    decode ⟨0b0000000001010011, 9, 41, 0xABCD⟩ = .ok (.wrbeI32 .unbounded (.included 41) 0xABCD) := by decide

/-- The table's own words (operand ports at 0), first and last row. -/
theorem test_decodeTableWord :
    decodeTableWord 16 0x0000 = some (.rdleU8 (.included 0) (.included 0)) ∧
    decodeTableWord 16 0x0153 = some (.wrbeI32 .unbounded .unbounded 0) := by decide

/-! ## Illegal words: 95_test_vectors.md section 2.4 -/

theorem test_illegal_0010 :
    statusAfter (oneCommand [0x0A, 0x50, 0xF0, 0x0F] .sign 0x0010 0 8 0) = some 0x09 := by decide

theorem test_illegal_0014 :
    statusAfter (oneCommand [0x0A, 0x50, 0xF0, 0x0F] .sign 0x0014 0 8 0) = some 0x09 := by decide

theorem test_illegal_0018 :
    statusAfter (oneCommand [0x0A, 0x50, 0xF0, 0x0F] .sign 0x0018 0 8 0) = some 0x09 := by decide

theorem test_illegal_001D :
    statusAfter (oneCommand [0x0A, 0x50, 0xF0, 0x0F] .sign 0x001D 0 8 0) = some 0x09 := by decide

theorem test_illegal_0060 :
    statusAfter (oneCommand [0x0A, 0x50, 0xF0, 0x0F] .sign 0x0060 0 8 0) = some 0x09 := by decide

theorem test_illegal_0180 :
    statusAfter (oneCommand [0x0A, 0x50, 0xF0, 0x0F] .sign 0x0180 0 8 0) = some 0x09 := by decide

theorem test_illegal_0200 :
    statusAfter (oneCommand [0x0A, 0x50, 0xF0, 0x0F] .sign 0x0200 0 8 0) = some 0x09 := by decide

theorem test_illegal_8088 :
    statusAfter (oneCommand [0x0A, 0x50, 0xF0, 0x0F] .sign 0x8088 8 24 0) = some 0x09 := by decide

/-- Illegal and 65 bits: ILLEGAL_COMMAND first. -/
theorem test_priority_illegal_first :
    statusAfter (oneCommand [0, 0, 0, 0] .sign 0x0200 0 64 0) = some 0x09 := by decide

/-- 71 bits and a start byte beyond the buffer: FIELD_TOO_WIDE first. -/
theorem test_priority_width_before_outside :
    statusAfter (oneCommand [0, 0, 0, 0] .sign 0x000C 80 150 0) = some 0x03 := by decide

/-- Zero width and a start byte beyond the buffer: FIELD_EMPTY first. -/
theorem test_priority_empty_before_outside :
    statusAfter (oneCommand [0, 0, 0, 0] .sign 0x008C 40 40 0) = some 0x05 := by decide

/-! ## One step of each command: 95_test_vectors.md sections 2.2 and 2.3 -/

/-- `RDLE.U8 ..`: field 0x0FF0500A truncated to 8 bits. -/
theorem test_rdleu8_1 :
    rdataAfter (oneCommand [0x0A, 0x50, 0xF0, 0x0F] .sign 0x0140 0 0 0) = some (some 0xA) := by decide

/-- `RDLE.U8 8..24`: 16-bit field truncated to 8 bits. -/
theorem test_rdleu8_2 :
    rdataAfter (oneCommand [0x0E, 0xD3, 0xF1, 0x8F] .sign 0x0080 8 24 0) = some (some 0xD3) := by decide

/-- `RDLE.U16 4..20`: unaligned, 3-byte span. -/
theorem test_rdleu16_1 :
    rdataAfter (oneCommand [0x0A, 0x50, 0xF0, 0x0F] .sign 0x0084 4 20 0) = some (some 0x500) := by decide

/-- `RDLE.U16 ..`: truncation to 16 bits. -/
theorem test_rdleu16_2 :
    rdataAfter (oneCommand [0x0A, 0x50, 0xF0, 0x0F] .sign 0x0144 0 0 0) = some (some 0x500A) := by decide

/-- `RDLE.U32 ..`: source E1. -/
theorem test_rdleu32_1 :
    rdataAfter (oneCommand [0x0A, 0x50, 0xF0, 0x0F] .sign 0x0148 0 0 0) = some (some 0xFF0500A) := by decide

/-- `RDLE.U32 8..`: `a..` ends at bit 63; clamped. -/
theorem test_rdleu32_2 :
    rdataAfter (oneCommand [0x0A, 0x50, 0xF0, 0x0F] .sign 0x0108 8 0 0) = some (some 0xFF050) := by decide

/-- `RDLE.U64 8..24`: source E2. -/
theorem test_rdleu64_1 :
    rdataAfter (oneCommand [0x0E, 0xD3, 0xF1, 0x8F] .sign 0x008C 8 24 0) = some (some 0xF1D3) := by decide

/-- `RDLE.U64 7..=70`: 64-bit field over 9 bytes. -/
theorem test_rdleu64_2 :
    rdataAfter (oneCommand [0x01, 0x23, 0x45, 0x67, 0x89, 0xAB, 0xCD, 0xEF, 0xFF] .sign 0x000C 7 70 0) = some (some 0xFFDF9B5712CE8A46) := by decide

/-- `RDBE.U8 0..8`: source E3. -/
theorem test_rdbeu8_1 :
    rdataAfter (oneCommand [0x0A, 0x50, 0xF0, 0x0F] .sign 0x0082 0 8 0) = some (some 0xF) := by decide

/-- `RDBE.U8 ..`: BE whole buffer truncated. -/
theorem test_rdbeu8_2 :
    rdataAfter (oneCommand [0x0A, 0x50, 0xF0, 0x0F] .sign 0x0142 0 0 0) = some (some 0xF) := by decide

/-- `RDBE.U16 0..16`: source E4. -/
theorem test_rdbeu16_1 :
    rdataAfter (oneCommand [0x0A, 0x50, 0xF0, 0x0F] .sign 0x0086 0 16 0) = some (some 0xF00F) := by decide

/-- `RDBE.U16 4..20`: unaligned BE. -/
theorem test_rdbeu16_2 :
    rdataAfter (oneCommand [0x0A, 0x50, 0xF0, 0x0F] .sign 0x0086 4 20 0) = some (some 0xF00) := by decide

/-- `RDBE.U32 0..24`: source E5. -/
theorem test_rdbeu32_1 :
    rdataAfter (oneCommand [0x0A, 0x50, 0xF0, 0x0F] .sign 0x008A 0 24 0) = some (some 0x50F00F) := by decide

/-- `RDBE.U32 3..=5`: 3-bit field in BUF[3]. -/
theorem test_rdbeu32_2 :
    rdataAfter (oneCommand [0x0E, 0xD3, 0xF1, 0x8F] .sign 0x000A 3 5 0) = some (some 0x1) := by decide

/-- `RDBE.U64 ..`: BE whole buffer. -/
theorem test_rdbeu64_1 :
    rdataAfter (oneCommand [0x0A, 0x50, 0xF0, 0x0F] .sign 0x014E 0 0 0) = some (some 0xA50F00F) := by decide

/-- `RDBE.U64 7..=70`: BE 64-bit over 9 bytes. -/
theorem test_rdbeu64_2 :
    rdataAfter (oneCommand [0x01, 0x23, 0x45, 0x67, 0x89, 0xAB, 0xCD, 0xEF, 0xFF] .sign 0x000E 7 70 0) = some (some 0x2468ACF13579BDF) := by decide

/-- `RDLE.U64 0..=64`: 65 bits. -/
theorem test_fault_rdleu64_3_0_64 :
    statusAfter (oneCommand [0x01, 0x23, 0x45, 0x67, 0x89, 0xAB, 0xCD, 0xEF, 0xFF] .sign 0x000C 0 64 0) = some 0x03 := by decide

/-- `RDLE.U64 8..8`: zero width. -/
theorem test_fault_rdleu64_5_8_8 :
    statusAfter (oneCommand [0x0A, 0x50, 0xF0, 0x0F] .sign 0x008C 8 8 0) = some 0x05 := by decide

/-- `RDLE.U64 40..48`: start byte 5 > LEN 4. -/
theorem test_fault_rdleu64_7_40_48 :
    statusAfter (oneCommand [0x0A, 0x50, 0xF0, 0x0F] .sign 0x008C 40 48 0) = some 0x07 := by decide

/-- `RDBE.U32 64..`: empty: bit 63 < 64. -/
theorem test_fault_rdbeu32_5_64_0 :
    statusAfter (oneCommand [0x0A, 0x50, 0xF0, 0x0F] .sign 0x010A 64 0 0) = some 0x05 := by decide

/-- `WRLE.U8 4..12, 0x1AB`: WDATA[63:8] ignored: value 0xAB. -/
theorem test_wrleu8_1 :
    bufAfter (oneCommand [0x00, 0x00, 0x00, 0x00] .sign 0x0081 4 12 0x1AB) =
      some (Memory.ofBytes 0 [0xB0, 0x0A, 0x00, 0x00]) := by decide

/-- `WRLE.U8 0..16, 0x1FF`: U8 value in a 16-bit field: bits 8..15 become 0. -/
theorem test_wrleu8_2 :
    bufAfter (oneCommand [0x00, 0x00, 0x00, 0x00] .sign 0x0081 0 16 0x1FF) =
      some (Memory.ofBytes 0 [0xFF, 0x00, 0x00, 0x00]) := by decide

/-- `WRLE.U16 0..4, 0xFFFF`: value cut to 4 bits. -/
theorem test_wrleu16_1 :
    bufAfter (oneCommand [0x00, 0x00, 0x00, 0x00] .sign 0x0085 0 4 0xFFFF) =
      some (Memory.ofBytes 0 [0x0F, 0x00, 0x00, 0x00]) := by decide

/-- `WRLE.U32 12..28, 0xFFFF`: clamped: only bits 12..15 stored. -/
theorem test_wrleu32_1 :
    bufAfter (oneCommand [0x00, 0x00] .sign 0x0089 12 28 0xFFFF) =
      some (Memory.ofBytes 0 [0x00, 0xF0]) := by decide

/-- `WRLE.U64 4..12, 0`: source E6. -/
theorem test_wrleu64_1 :
    bufAfter (oneCommand [0xFF, 0xFF, 0xFF, 0xFF] .sign 0x008D 4 12 0x0) =
      some (Memory.ofBytes 0 [0x0F, 0xF0, 0xFF, 0xFF]) := by decide

/-- `WRLE.U64 7..=70, 0xFFFFFFFFFFFFFFFF`: 9-byte span, 128-bit shift. -/
theorem test_wrleu64_2 :
    bufAfter (oneCommand [0x00, 0x00, 0x00, 0x00, 0x00, 0x00, 0x00, 0x00, 0x00] .sign 0x000D 7 70 0xFFFFFFFFFFFFFFFF) =
      some (Memory.ofBytes 0 [0x80, 0xFF, 0xFF, 0xFF, 0xFF, 0xFF, 0xFF, 0xFF, 0x7F]) := by decide

/-- `WRLE.I32 0..40, 0xFFFFFFFF`: I32 -1 into 40 bits (SIGN). -/
theorem test_wrlei32_1 :
    bufAfter (oneCommand [0x00, 0x00, 0x00, 0x00, 0x00, 0x00, 0x00, 0x00] .sign 0x0091 0 40 0xFFFFFFFF) =
      some (Memory.ofBytes 0 [0xFF, 0xFF, 0xFF, 0xFF, 0xFF, 0x00, 0x00, 0x00]) := by decide

/-- `WRLE.I32 0..8, 0xFFFFFF80`: I32 into 8 bits: both settings agree. -/
theorem test_wrlei32_2 :
    bufAfter (oneCommand [0x00, 0x00, 0x00, 0x00] .sign 0x0091 0 8 0xFFFFFF80) =
      some (Memory.ofBytes 0 [0x80, 0x00, 0x00, 0x00]) := by decide

/-- `WRBE.U8 0..8, 0x1FF`: BE, value 0xFF into BUF[3]. -/
theorem test_wrbeu8_1 :
    bufAfter (oneCommand [0x0A, 0x50, 0xF0, 0x0F] .sign 0x0083 0 8 0x1FF) =
      some (Memory.ofBytes 0 [0x0A, 0x50, 0xF0, 0xFF]) := by decide

/-- `WRBE.U16 0..16, 0x1234`: BE, BUF[2..3]. -/
theorem test_wrbeu16_1 :
    bufAfter (oneCommand [0x0A, 0x50, 0xF0, 0x0F] .sign 0x0087 0 16 0x1234) =
      some (Memory.ofBytes 0 [0x0A, 0x50, 0x12, 0x34]) := by decide

/-- `WRBE.U32 12..28, 0xFFFF`: BE clamped. -/
theorem test_wrbeu32_1 :
    bufAfter (oneCommand [0x00, 0x00] .sign 0x008B 12 28 0xFFFF) =
      some (Memory.ofBytes 0 [0xF0, 0x00]) := by decide

/-- `WRBE.U64 4..12, 0`: source E7. -/
theorem test_wrbeu64_1 :
    bufAfter (oneCommand [0xFF, 0xFF, 0xFF, 0xFF] .sign 0x008F 4 12 0x0) =
      some (Memory.ofBytes 0 [0xFF, 0xFF, 0xF0, 0x0F]) := by decide

/-- `WRBE.U64 7..=70, 0x8000000000000001`: BE 9-byte span. -/
theorem test_wrbeu64_2 :
    bufAfter (oneCommand [0x00, 0x00, 0x00, 0x00, 0x00, 0x00, 0x00, 0x00, 0x00] .sign 0x000F 7 70 0x8000000000000001) =
      some (Memory.ofBytes 0 [0x40, 0x00, 0x00, 0x00, 0x00, 0x00, 0x00, 0x00, 0x80]) := by decide

/-- `WRBE.I32 0..40, 0x80000000`: I32 minimum into 40 bits (SIGN). -/
theorem test_wrbei32_1 :
    bufAfter (oneCommand [0x00, 0x00, 0x00, 0x00, 0x00, 0x00, 0x00, 0x00] .sign 0x0093 0 40 0x80000000) =
      some (Memory.ofBytes 0 [0x00, 0x00, 0x00, 0xFF, 0x80, 0x00, 0x00, 0x00]) := by decide

/-- `WRLE.U64 0..=64, 1`: 65 bits. -/
theorem test_fault_wrleu64_3_0_64 :
    statusAfter (oneCommand [0x00, 0x00, 0x00, 0x00] .sign 0x000D 0 64 0x1) = some 0x03 := by decide

/-- `WRLE.U64 8..8, 1`: zero width. -/
theorem test_fault_wrleu64_5_8_8 :
    statusAfter (oneCommand [0x00, 0x00, 0x00, 0x00] .sign 0x008D 8 8 0x1) = some 0x05 := by decide

/-- `WRLE.U64 40..48, 0xFF`: start byte 5 > LEN 4. -/
theorem test_fault_wrleu64_7_40_48 :
    statusAfter (oneCommand [0x55, 0x55, 0x55, 0x55] .sign 0x008D 40 48 0xFF) = some 0x07 := by decide

/-- `WRLE.I32 0..40, 0xFFFFFFFF` under `I32_EXT = ZERO` (95_test_vectors.md section 2.3). -/
theorem test_wrlei32_zero :
    bufAfter (oneCommand [0, 0, 0, 0, 0, 0, 0, 0] .zero 0x0091 0 40 0xFFFFFFFF) =
      some (Memory.ofBytes 0 [0xFF, 0xFF, 0xFF, 0xFF, 0x00, 0x00, 0x00, 0x00]) := by decide

/-- `WRBE.I32 0..40, 0x80000000` under `I32_EXT = ZERO` (95_test_vectors.md section 2.3). -/
theorem test_wrbei32_zero :
    bufAfter (oneCommand [0, 0, 0, 0, 0, 0, 0, 0] .zero 0x0093 0 40 0x80000000) =
      some (Memory.ofBytes 0 [0x00, 0x00, 0x00, 0x00, 0x80, 0x00, 0x00, 0x00]) := by decide

/-! ## The halted state, reset, and the model's refusals -/

/-- A state halted by FIELD_TOO_WIDE, with a command waiting. -/
def haltedWith (port : List PortEvent) : State :=
  { State.launch [0x80, 0xFF] 64 .sign port with status := 0x03, rdata := some 0x80 }

/-- 95_test_vectors.md P3 step 5: not accepted while halted. -/
theorem test_halted_not_accepted :
    step (haltedWith [.command ⟨0x0080, 0, 8, 0⟩ []]) = .fault .halted := by rfl

/-- 70_reset_and_hazards.md R260: reset out of the halted state; `BUF` stays, `RDATA` is absent. -/
theorem test_reset_from_halted :
    nextOf (step (haltedWith [.reset])) = some (State.launch [0x80, 0xFF] 64 .sign []) := by decide

/-- 20_memory.md R72, R78: another agent at byte 1 of the span of `4..12`, of which the field covers only the low half. -/
theorem test_race_refused :
    step (State.launch [0, 0] 64 .sign [.command ⟨0x0081, 4, 12, 0⟩ [1]]) = .refused .race := by rfl

/-- Another agent outside the span does not disturb the command. -/
theorem test_no_race_outside_span :
    statusAfter (State.launch [0, 0, 0] 64 .sign [.command ⟨0x0081, 4, 12, 0⟩ [2]]) = some 0 := by decide

/-- A byte the host never defined is not read as 0 (70_reset_and_hazards.md R262). -/
def holed : State := { State.launch [7, 7] 64 .sign [.command ⟨0x0080, 8, 16, 0⟩ []] with buf := [(0, 7)] }

theorem test_undefined_byte_refused : step holed = .refused .undefinedByte := by rfl

/-- The first command after reset, as the host places it. -/
theorem test_first_command_after_reset :
    rdataAfter (State.reset.withFetchWord 16 0x0000) = some (some 0) := by decide

/-! ## Witnesses: concrete states and operands that meet the hypotheses of each obligation, at boundary values -/

/-- The spec's four-byte buffer, ready. -/
def four : State := State.launch [0x0A, 0x50, 0xF0, 0x0F] 64 .sign []

/-- The same with its bytes reversed. -/
def fourReversed : State := State.launch [0x0F, 0xF0, 0x50, 0x0A] 64 .sign []

/-- The spec's nine-byte buffer, ready. -/
def nine : State := State.launch [0x01, 0x23, 0x45, 0x67, 0x89, 0xAB, 0xCD, 0xEF, 0xFF] 64 .sign []

theorem witness_EncodeOfDecode : decode ⟨0x0148, 5, 6, 7⟩ = .ok (.rdleU32 .unbounded .unbounded) := by decide

theorem witness_IllegalWordsRaiseIllegalCommand :
    (oneCommand [1] .sign 0x8000 0 0 0).StatusLegal ∧ (oneCommand [1] .sign 0x8000 0 0 0).Ready ∧
    (oneCommand [1] .sign 0x8000 0 0 0).port = .command ⟨0x8000, 0, 0, 0⟩ [] :: [] ∧ IllegalWord 0x8000 := by decide

theorem witness_UpperWriteBitsIgnored :
    (0x1FF#64).extractLsb' 0 8 = (0xFF#64).extractLsb' 0 8 ∧
    (0x1FFFF#64).extractLsb' 0 16 = (0xFFFF#64).extractLsb' 0 16 ∧
    (0x1FFFFFFFF#64).extractLsb' 0 32 = (0xFFFFFFFF#64).extractLsb' 0 32 := by decide

theorem witness_ResolverWorkedExamples : 1 ≤ (1 : Nat) := by decide

/-- One bit, 64 bits, and a start byte equal to `LEN`. -/
theorem witness_ResolvedTuple :
    RangeAccepted (.included 5) (.included 5) 1 ∧ RangeAccepted (.included 7) (.included 70) 9 ∧
    RangeAccepted (.included 32) (.excluded 40) 4 := by decide

/-- Unclamped, clamped with a field bit beyond the buffer, and the empty span. -/
theorem witness_ResolverPostconditions :
    resolve (.included 7) (.included 70) 9 = .ok ⟨7, 64, 0, 9⟩ ∧ absEnd (.included 70) / 8 + 1 ≤ ((9 : Nat) : Int) ∧
    resolve (.included 7) (.included 70) 5 = .ok ⟨7, 64, 0, 5⟩ ∧ ((5 : Nat) : Int) < absEnd (.included 70) / 8 + 1 ∧
    InField (.included 7) (.included 70) 40 ∧ 8 * 5 ≤ 40 ∧
    resolve (.included 32) (.excluded 40) 4 = .ok ⟨0, 8, 4, 4⟩ := by decide

theorem witness_SpanLength :
    resolve (.included 7) (.included 70) 9 = .ok ⟨7, 64, 0, 9⟩ ∧ absEnd (.included 70) / 8 + 1 ≤ ((9 : Nat) : Int) := by
  decide

theorem witness_SpanPhysicalIndices : resolve (.included 12) (.excluded 28) 2 = .ok ⟨4, 16, 1, 2⟩ := by decide

theorem witness_PhysicalPlaceOfLogicalBits :
    31 < 8 * four.params.len ∧ four.buf.read (31 / 8) = some 0x0F ∧
    four.buf.read (four.params.len - 1 - 31 / 8) = some 0x0A := by decide

theorem witness_AssemblyIsWeightedSum : nine.BufDefined ∧ 0 + 9 ≤ nine.params.len ∧ 9 ≤ 9 := by decide

theorem witness_FoldEqualsAssembly : nine.BufDefined ∧ 1 + 8 ≤ nine.params.len := by decide

theorem witness_DisassemblyWritesSpan : 1 + 3 ≤ four.params.len := by decide

theorem witness_EmptySpanReadsZeroWritesNothing :
    four.StatusLegal ∧ four.Ready ∧ RangeAccepted (.included 32) (.excluded 40) four.params.len ∧
    absStart (.included 32) / 8 = (four.params.len : Int) ∧
    (Instr.rdleU8 (.included 32) (.excluded 40)).shape.op = .read ∧
    (Instr.wrbeI32 (.included 32) (.excluded 40) 1).shape.op = .write := by decide

/-- The hypotheses of `ReadsClosedForm`, `WritesClosedForm` and `RoundTrip`: a 64-bit field over nine bytes, and a
clamped one. -/
theorem witness_accepted_commands :
    nine.Inv ∧ nine.Ready ∧ RangeAccepted (.included 7) (.included 70) nine.params.len ∧
    four.Inv ∧ four.Ready ∧ RangeAccepted (.included 24) (.included 39) four.params.len := by decide

theorem witness_ReadEffects :
    (Instr.rdbeU16 .unbounded .unbounded).shape.op = .read ∧ four.Inv ∧ four.Ready ∧
    (haltedWith []).Inv ∧ (haltedWith []).Halted := by decide

theorem witness_EndiannessSymmetry :
    four.Inv ∧ fourReversed.Inv ∧ four.Ready ∧ fourReversed.Ready ∧ fourReversed.params = four.params ∧
    fourReversed.rdata = four.rdata ∧
    ∀ k, k < four.params.len → fourReversed.buf.read k = four.buf.read (four.params.len - 1 - k) := by decide

/-- A 16-bit field that ends at the last bit of the buffer, read at 16 bits. -/
theorem witness_ExactReads :
    (Instr.rdleU16 (.included 16) (.included 31)).shape.op = .read ∧ four.Inv ∧ four.Ready ∧
    RangeAccepted (.included 16) (.included 31) four.params.len ∧ absEnd (.included 31) < 8 * (four.params.len : Int) ∧
    totalBits (.included 16) (.included 31) ≤ widthBits .u16 := by decide

theorem witness_NarrowReadInsideWideRead :
    four.Inv ∧ four.Ready ∧ RangeAccepted .unbounded .unbounded four.params.len ∧
    RangeAccepted (.included 8) (.included 63) four.params.len ∧ absStart .unbounded ≤ absStart (.included 8) ∧
    absEnd (.included 63) ≤ absEnd .unbounded := by decide

/-- Bit 31 clear with a wide field; bit 31 set with a field of 32 bits. -/
theorem witness_SignExtensionVisibleOnlyInWideNegative :
    four.Inv ∧ four.Ready ∧ RangeAccepted (.included 0) (.included 39) four.params.len ∧
    (0x7FFFFFFF#64).getLsbD 31 = false ∧ RangeAccepted (.included 0) (.included 31) four.params.len ∧
    totalBits (.included 0) (.included 31) ≤ 32 := by decide

/-- A big-endian span whose neighbour byte stays; a range that faults; a halted machine. -/
theorem witness_WriteEffects :
    (Instr.wrbeU8 (.included 24) (.included 31) 1).shape.op = .write ∧ four.Inv ∧ four.Ready ∧
    resolve (.included 24) (.included 31) four.params.len = .ok ⟨0, 8, 3, 4⟩ ∧
    1 ∉ spanIndices .big four.params.len ⟨0, 8, 3, 4⟩ ∧
    resolve (.included 40) (.included 40) four.params.len = .error .rangeOutsideBuffer ∧
    (haltedWith []).Inv ∧ (haltedWith []).Halted := by decide

theorem witness_WriteNonInterference :
    (Instr.wrleU8 (.included 4) (.excluded 12) 0xFF).shape.op = .write ∧ four.Inv ∧
    (nextOf (exec (.wrleU8 (.included 4) (.excluded 12) 0xFF) four)).isSome = true ∧
    ¬ InField (.included 4) (.excluded 12) 12 ∧ resolve (.included 4) (.excluded 12) 4 = .ok ⟨4, 8, 0, 2⟩ ∧
    2 ∉ spanIndices .little 4 ⟨4, 8, 0, 2⟩ := by decide

/-- The widest field the statement takes, ending at the last bit of the buffer. -/
theorem witness_TruncationOnWrite :
    nine.Inv ∧ nine.Ready ∧ RangeAccepted (.included 9) (.included 71) nine.params.len ∧
    absEnd (.included 71) < 8 * (nine.params.len : Int) ∧ totalBits (.included 9) (.included 71) < 64 := by decide

theorem witness_CommandsAreIdempotent :
    four.Inv ∧ ((nextOf (exec (.wrbeU8 .unbounded .unbounded 1) four)).map State.faultBit) = some false := by decide

/-- Each clause at its boundary: 65 bits; no bit; a start byte one beyond `LEN`, with 1 bit and with 64. -/
theorem witness_RangeFaultEntry :
    four.StatusLegal ∧ four.Ready ∧ 64 < totalBits (.included 0) (.included 64) ∧
    totalBits (.included 8) (.excluded 8) < 1 ∧
    (1 ≤ totalBits (.included 40) (.included 40) ∧ totalBits (.included 40) (.included 40) ≤ 64 ∧
      (four.params.len : Int) < absStart (.included 40) / 8) ∧
    (1 ≤ totalBits (.included 40) (.included 103) ∧ totalBits (.included 40) (.included 103) ≤ 64) := by decide

theorem witness_HaltedAcceptsNoCommand :
    (haltedWith []).StatusLegal ∧ (haltedWith []).Halted ∧
    (haltedWith [.command ⟨0, 0, 0, 0⟩ [], .reset]).port = .command ⟨0, 0, 0, 0⟩ [] :: [.reset] ∧
    (nextOf (step (haltedWith [.reset]))).isSome = true := by decide

theorem witness_EveryCommandEnds :
    four.Inv ∧ four.Ready ∧ RangeAccepted (.included 39) (.included 39) four.params.len ∧
    ¬ RangeAccepted (.included 40) (.included 40) four.params.len := by decide

/-- A step with a next state, through a command, a fault, and a reset. -/
theorem witness_steps :
    (nextOf (step (oneCommand [1] .sign 0x0000 0 0 0))).isSome = true ∧
    statusAfter (oneCommand [1] .sign 0x0000 0 64 0) = some 0x03 ∧
    (nextOf (step (haltedWith [.reset]))).isSome = true := by decide

/-- `OnlyCompletedReadsWriteRdata`: a write, a faulting read and a completed read. -/
theorem witness_OnlyCompletedReadsWriteRdata :
    (nextOf (exec (.wrleU8 .unbounded .unbounded 1) four)).isSome = true ∧
    ((nextOf (exec (.rdleU8 (.included 0) (.included 64)) four)).map State.faultBit) = some true ∧
    ((nextOf (exec (.rdleU8 .unbounded .unbounded) four)).map State.faultBit) = some false := by decide

/-- A state with a command on the port and another agent at the last byte of its span. -/
def raced : State := State.launch [0, 0] 64 .sign [.command ⟨0x0081, 4, 12, 0⟩ [1]]

theorem witness_RaceOnSpanRefused :
    raced.StatusLegal ∧ raced.Ready ∧ raced.port = .command ⟨0x0081, 4, 12, 0⟩ [1] :: [] ∧
    decode ⟨0x0081, 4, 12, 0⟩ = .ok (.wrleU8 (.included 4) (.excluded 12) 0) ∧
    (Instr.wrleU8 (.included 4) (.excluded 12) 0).wf raced.params = true ∧
    resolve (.included 4) (.excluded 12) raced.params.len = .ok ⟨4, 8, 0, 2⟩ ∧
    1 ∈ spanIndices .little raced.params.len ⟨4, 8, 0, 2⟩ ∧ 1 ∈ [1] := by decide

/-- A state with a command on the port and another agent outside its span. -/
def calm : State := State.launch [0, 0, 0] 64 .sign [.command ⟨0x0081, 4, 12, 0⟩ [2]]

theorem witness_StepRunsDecodedCommand :
    calm.StatusLegal ∧ calm.Ready ∧ calm.port = .command ⟨0x0081, 4, 12, 0⟩ [2] :: [] ∧
    decode ⟨0x0081, 4, 12, 0⟩ = .ok (.wrleU8 (.included 4) (.excluded 12) 0) ∧
    (Instr.wrleU8 (.included 4) (.excluded 12) 0).wf calm.params = true ∧
    races (.wrleU8 (.included 4) (.excluded 12) 0) calm.params.len [2] = false := by decide

theorem witness_UndefinedByteRefused :
    holed.StatusLegal ∧ holed.Ready ∧ resolve (.included 8) (.excluded 16) holed.params.len = .ok ⟨0, 8, 1, 2⟩ ∧
    1 ∈ spanIndices .little holed.params.len ⟨0, 8, 1, 2⟩ ∧ holed.buf.read 1 = none := by decide

theorem witness_NoCommandReachesBeyondBuffer : four.params.len ≤ 4 := by decide

/-- A port of 4 bits with the index 16 on it. -/
def narrowPort : State := State.launch [0] 4 .sign [.command ⟨0, 16, 0, 0⟩ []]

theorem witness_IndexWiderThanPortRefused :
    narrowPort.StatusLegal ∧ narrowPort.Ready ∧ narrowPort.port = .command ⟨0, 16, 0, 0⟩ [] :: [] ∧
    decode ⟨0, 16, 0, 0⟩ = .ok (.rdleU8 (.included 16) (.included 0)) ∧
    (Instr.rdleU8 (.included 16) (.included 0)).wf narrowPort.params = false := by decide

/-- CAUSE 5, with FAULT 1. -/
theorem witness_ReservedCauseRefused :
    5 ≤ (({ four with status := 0x0B } : State).status.extractLsb' 1 3).toNat := by decide

theorem witness_HostReadsStatus : (haltedWith []).StatusLegal := by decide

theorem witness_ResetClearsRegistersKeepsBuffer : (haltedWith [.reset]).port = .reset :: [] := by decide

theorem witness_NoActionNoChange : four.port = [] := by decide

/-- The bit of `BUF[1]` that big-endian numbers 3 is the one little-endian numbers 11, in two bytes (20_memory.md R64). -/
theorem test_renumberBit : renumberBit .little .big 2 3 = 11 ∧ renumberBit .big .big 2 15 = 15 := by decide

/-- The write is big-endian and ends at the last bit of the buffer, with another agent at the byte outside its span. -/
def overlapWrite : Instr := .wrbeU64 (.included 12) (.included 23) 0xABC

/-- The read is little-endian, clamped, and shares only byte 1 with the write; another agent is outside its span. -/
def overlapRead : Instr := .rdleU16 (.included 8) (.included 31)

def writeThenRead : State :=
  State.launch [0, 0, 0] 64 .sign [.command (encode overlapWrite) [2], .command (encode overlapRead) [0]]

theorem witness_ReadAfterWriteOverSteps :
    writeThenRead.Inv ∧ writeThenRead.Ready ∧ overlapWrite.shape.op = .write ∧ overlapRead.shape.op = .read ∧
    RangeAccepted overlapWrite.shape.start overlapWrite.shape.stop writeThenRead.params.len ∧
    RangeAccepted overlapRead.shape.start overlapRead.shape.stop writeThenRead.params.len ∧
    decode (encode overlapWrite) = .ok overlapWrite ∧ decode (encode overlapRead) = .ok overlapRead ∧
    overlapWrite.wf writeThenRead.params = true ∧ overlapRead.wf writeThenRead.params = true ∧
    races overlapWrite writeThenRead.params.len [2] = false ∧ races overlapRead writeThenRead.params.len [0] = false ∧
    writeThenRead.port = .command (encode overlapWrite) [2] :: .command (encode overlapRead) [0] :: [] := by decide

theorem witness_StepKeepsInvariant :
    (oneCommand [1] .sign 0x0001 0 0 0).Inv ∧ (nextOf (step (oneCommand [1] .sign 0x0001 0 0 0))).isSome = true := by decide

end Sys2Proof.Tests
end

section
/-! What a command at the head of the port leads to, said once for every statement over steps (30_encoding.md R105). -/

namespace Sys2Proof.Machine

/-- A command at the head of the port is offered to the machine without it. -/
theorem step_of_port_command {s : State} {tx : Transaction} {foreign : List Nat} {rest : List PortEvent}
    (h : s.port = .command tx foreign :: rest) : step s = offerCommand tx foreign (s.setPort rest) := by
  rw [step, portStep, h]

/-- A ready machine's answer to a legal command word: the index check comes first, then the race check, then the run. -/
theorem offerCommand_of_decode {s : State} {tx : Transaction} {i : Instr} (hl : s.StatusLegal) (hr : s.Ready)
    (hd : decode tx = .ok i) (foreign : List Nat) :
    offerCommand tx foreign s =
      if i.wf s.params then
        if races i s.params.len foreign then .refused .race else exec i s
      else .refused .indexTooWide := by
  rw [offerCommand, acceptance_ready hl hr, hd]

/-- The answer of a step to a legal command word on the port of a ready machine. -/
theorem step_of_decode {s : State} {tx : Transaction} {foreign : List Nat} {rest : List PortEvent} {i : Instr}
    (hl : s.StatusLegal) (hr : s.Ready) (hp : s.port = .command tx foreign :: rest) (hd : decode tx = .ok i) :
    step s =
      if i.wf s.params then
        if races i s.params.len foreign then .refused .race else exec i (s.setPort rest)
      else .refused .indexTooWide :=
  (step_of_port_command hp).trans (offerCommand_of_decode (s := s.setPort rest) hl hr hd foreign)

/-- Settles O40: the index check refuses before the race check and the run are reached. -/
theorem indexWiderThanPortRefused : Obligations.IndexWiderThanPortRefused := by
  intro s tx foreign rest i hl hr hp hd hw
  have hnot : ¬ i.wf s.params = true := Bool.eq_false_iff.1 hw
  rw [step_of_decode hl hr hp hd, if_neg hnot]

end Sys2Proof.Machine
end

section
/-! What a machine that accepts no command answers to one (60_exceptions.md R238, 93_implementation_defined.md U9). -/

namespace Sys2Proof.Machine

/-- A reserved CAUSE stops a command whatever FAULT holds. -/
theorem acceptance_reserved {s : State} (h : s.causeReserved = true) :
    acceptance s = some (.refusal .reservedCause) := by
  rw [acceptance, if_pos h]

/-- A command that is not accepted answers the reason, whatever its row and its range. -/
theorem exec_not_accepted {s : State} {why : Stop} (h : acceptance s = some why) (i : Instr) :
    exec i s = why.outcome := by
  rw [exec_eq_runShape, runShape]
  cases i.shape.op with
  | read => simp only [readCmd, h]
  | write => simp only [writeCmd, h]

/-- A transaction that is not accepted answers the reason before it is decoded (30_encoding.md R105). -/
theorem offerCommand_not_accepted {s : State} {why : Stop} (h : acceptance s = some why) (tx : Transaction)
    (foreign : List Nat) : offerCommand tx foreign s = why.outcome := by
  simp only [offerCommand, h]

/-- Settles O41: acceptance looks at CAUSE first. -/
theorem reservedCauseRefused : Obligations.ReservedCauseRefused := by
  intro i s hcause
  exact exec_not_accepted (acceptance_reserved (decide_eq_true hcause)) i

/-- Settles O32: both ways to a command meet the acceptance check first, so of the three kinds of step only the idle one
and the reset are left. -/
theorem haltedAcceptsNoCommand : Obligations.HaltedAcceptsNoCommand := by
  intro s hlegal hhalted
  have hport : ∀ tx foreign rest, s.port = .command tx foreign :: rest → step s = .fault .halted :=
    fun tx foreign rest hp => (step_of_port_command hp).trans
      (offerCommand_not_accepted (s := s.setPort rest) (acceptance_halted hlegal hhalted) tx foreign)
  refine ⟨exec_not_accepted (acceptance_halted hlegal hhalted), hport, fun t hstep => ?_⟩
  rcases step_inv hstep with ⟨-, rfl⟩ | ⟨rest, hp, -⟩ | ⟨tx, foreign, rest, hp, -⟩
  · exact .inl hhalted
  · exact .inr ⟨rest, hp⟩
  · rw [hport tx foreign rest hp] at hstep
    cases hstep

end Sys2Proof.Machine
end

section
/-! What the next state of a command is, for every command at once: a fault taken, or `RDATA` alone written by a read,
or `BUF` alone by a write (42_read.md R163, 43_write.md R194). -/

namespace Sys2Proof.Machine

/-- A disassembly into an accepted span that succeeds has changed `BUF` alone. -/
theorem disassemble_span_inv {e : Endian} {start stop : Bound} {s t : State} {r : Span} {acc : AccWord}
    (hres : resolve start stop s.params.len = .ok r) (h : disassemble e s r.startByte acc r.size = .ok t) :
    ∃ m, t = s.setBuf m := by
  obtain ⟨haccepted, rfl⟩ := resolve_ok_inv hres
  obtain ⟨-, -, -, hle, hend, -, -, -⟩ := spanOf_bounds haccepted
  obtain ⟨m, hm, -⟩ := disassemble_spec (e := e) (s := s) acc
    (start := (spanOf start stop s.params.len).startByte) (n := (spanOf start stop s.params.len).size)
    (by unfold Span.size; omega)
  exact ⟨m, Except.ok.inj (h.symm.trans hm)⟩

/-- The next states of a command, each with its condition. -/
theorem exec_inv {i : Instr} {s t : State} (h : exec i s = .next t) :
    s.Ready ∧
      ((∃ c, t = raiseFault c s) ∨
       (i.shape.op = .read ∧ ∃ v, t = s.setRdata (some v)) ∨
       (i.shape.op = .write ∧ RangeAccepted i.shape.start i.shape.stop s.params.len ∧ ∃ m, t = s.setBuf m)) := by
  rw [exec_eq_runShape, runShape] at h
  cases hop : i.shape.op with
  | read =>
    rw [hop] at h
    obtain ⟨hready, ⟨c, -, ht⟩ | ⟨r, acc, -, -, ht⟩⟩ := readCmd_inv h
    · exact ⟨hready, .inl ⟨c, ht⟩⟩
    · exact ⟨hready, .inr (.inl ⟨rfl, _, ht⟩)⟩
  | write =>
    rw [hop] at h
    obtain ⟨hready, ⟨c, -, ht⟩ | ⟨r, acc, hres, -, hdis⟩⟩ := writeCmd_inv h
    · exact ⟨hready, .inl ⟨c, ht⟩⟩
    · exact ⟨hready, .inr (.inr ⟨rfl, (resolve_ok_inv hres).1, disassemble_span_inv hres hdis⟩)⟩

/-- The next states of an offered command: a fault taken, whichever of the four, or a command that completed. -/
theorem offerCommand_cases {tx : Transaction} {foreign : List Nat} {s t : State}
    (h : offerCommand tx foreign s = .next t) :
    s.Ready ∧ ((∃ c, t = raiseFault c s) ∨ (∃ v, t = s.setRdata v) ∨ (∃ m, t = s.setBuf m)) := by
  obtain ⟨hready, ⟨-, -, ht⟩ | ⟨i, -, -, -, hexec⟩⟩ := offerCommand_inv h
  · exact ⟨hready, .inl ⟨_, ht⟩⟩
  · obtain ⟨-, hfault | ⟨-, v, ht⟩ | ⟨-, -, hbuf⟩⟩ := exec_inv hexec
    · exact ⟨hready, .inl hfault⟩
    · exact ⟨hready, .inr (.inl ⟨_, ht⟩)⟩
    · exact ⟨hready, .inr (.inr hbuf)⟩

/-- The words a fault entry can leave in `STATUS` (10_state.md R37). -/
theorem statusWord_code_cases (c : Cause) :
    statusWord true c.code = 0x03 ∨ statusWord true c.code = 0x05 ∨ statusWord true c.code = 0x07 ∨
      statusWord true c.code = 0x09 := by
  rw [statusWord_code]
  cases c <;> simp

/-- Settles O35: the fault entry leaves `RDATA` and halts, the two completions leave the machine ready. -/
theorem onlyCompletedReadsWriteRdata : Obligations.OnlyCompletedReadsWriteRdata := by
  intro i s t h
  obtain ⟨hready, ⟨c, rfl⟩ | ⟨hop, v, rfl⟩ | ⟨hop, -, m, rfl⟩⟩ := exec_inv h
  · have hhalted := raiseFault_halted c s
    exact ⟨fun _ => rfl, fun _ => rfl, fun _ hr => absurd (hr.symm.trans hhalted) Bool.false_ne_true⟩
  · have hstill : (s.setRdata (some v)).Ready := hready
    exact ⟨fun hw => absurd (hop.symm.trans hw) (by decide),
      fun hh => absurd (hstill.symm.trans hh) Bool.false_ne_true, fun _ _ => ⟨v, rfl⟩⟩
  · exact ⟨fun _ => rfl, fun _ => rfl, fun hr => absurd (hop.symm.trans hr) (by decide)⟩

/-- Settles O36: no update of the state that a step makes writes the parameters. -/
theorem parametersNeverChange : Obligations.ParametersNeverChange := by
  intro s t h
  rcases step_inv h with ⟨-, rfl⟩ | ⟨rest, -, rfl⟩ | ⟨tx, foreign, rest, -, hoffer⟩
  · rfl
  · simp
  · obtain ⟨-, ⟨c, rfl⟩ | ⟨v, rfl⟩ | ⟨m, rfl⟩⟩ := offerCommand_cases hoffer <;> simp

/-- Settles O34: a command that completes writes `RDATA` or `BUF`, so a command that changes `STATUS` is a fault
entry. -/
theorem onlyFaultAndResetChangeStatus : Obligations.OnlyFaultAndResetChangeStatus := by
  intro s t h
  rcases step_inv h with ⟨-, rfl⟩ | ⟨rest, hp, rfl⟩ | ⟨tx, foreign, rest, hp, hoffer⟩
  · exact .inl rfl
  · exact .inr (.inl ⟨rest, hp, assertReset_status _⟩)
  · obtain ⟨hready, ⟨c, rfl⟩ | ⟨v, rfl⟩ | ⟨m, rfl⟩⟩ := offerCommand_cases hoffer
    · exact .inr (.inr ⟨tx, foreign, rest, statusWord true c.code, hp, hready, statusWord_code_cases c, rfl⟩)
    · exact .inl rfl
    · exact .inl rfl

end Sys2Proof.Machine
end

section
/-! The invariant: `BUF` canonical, whole and inside its bounds, `STATUS` legal; each kind of step keeps it. -/

namespace Sys2Proof.Machine

/-- The invariant looks at `BUF`, `LEN` and `STATUS` alone, and at `STATUS` only in its last part. -/
theorem State.Inv.congr {s t : State} (hs : s.Inv) (hbuf : t.buf = s.buf) (hparams : t.params = s.params)
    (hlegal : t.StatusLegal) : t.Inv := by
  obtain ⟨hwf, hbounded, hdefined, -⟩ := hs
  unfold State.Inv State.BufBounded State.BufDefined
  rw [hbuf, hparams]
  exact ⟨hwf, hbounded, hdefined, hlegal⟩

theorem State.Inv.statusLegal {s : State} (hs : s.Inv) : s.StatusLegal := by
  obtain ⟨-, -, -, hlegal⟩ := hs
  exact hlegal

theorem State.Inv.raiseFault {s : State} (hs : s.Inv) (c : Cause) : (raiseFault c s).Inv :=
  hs.congr rfl rfl (raiseFault_statusLegal c s)

theorem State.Inv.assertReset {s : State} (hs : s.Inv) : (assertReset s).Inv :=
  hs.congr rfl rfl (.inl rfl)

theorem State.Inv.setRdata {s : State} (hs : s.Inv) (v : Option Word64) : (s.setRdata v).Inv :=
  hs.congr rfl rfl hs.statusLegal

theorem State.Inv.setPort {s : State} (hs : s.Inv) (p : List PortEvent) : (s.setPort p).Inv :=
  hs.congr rfl rfl hs.statusLegal

/-- Every command keeps the invariant; a write keeps it because its next state is the one of an accepted write. -/
theorem exec_keeps_inv {i : Instr} {s t : State} (hs : s.Inv) (h : exec i s = .next t) : t.Inv := by
  obtain ⟨hready, ⟨c, rfl⟩ | ⟨-, v, rfl⟩ | ⟨hop, haccepted, -⟩⟩ := exec_inv h
  · exact hs.raiseFault c
  · exact hs.setRdata _
  · rw [exec_eq_runShape, runShape, hop] at h
    obtain ⟨m, hm, hinv, -⟩ := writeCmd_accepted (e := i.shape.endian) (w := i.shape.width) (v := i.shape.wdata)
      hs hready haccepted
    cases h.symm.trans hm
    exact hinv

/-- An offered command keeps the invariant, whether its word is legal or not. -/
theorem offerCommand_keeps_inv {tx : Transaction} {foreign : List Nat} {s t : State} (hs : s.Inv)
    (h : offerCommand tx foreign s = .next t) : t.Inv := by
  obtain ⟨-, ⟨-, -, rfl⟩ | ⟨i, -, -, -, hexec⟩⟩ := offerCommand_inv h
  · exact hs.raiseFault _
  · exact exec_keeps_inv hs hexec

/-- Settles O50: idle, reset or a command, each keeps the invariant. -/
theorem stepKeepsInvariant : Obligations.StepKeepsInvariant := by
  intro s t hs h
  rcases step_inv h with ⟨-, rfl⟩ | ⟨rest, -, rfl⟩ | ⟨tx, foreign, rest, -, hoffer⟩
  · exact hs
  · exact (hs.setPort rest).assertReset
  · exact offerCommand_keeps_inv (hs.setPort rest) hoffer

/-- Settles O49: with `LEN = 0` there is no byte to define or to bound. -/
theorem resetMeetsInvariant : Obligations.ResetMeetsInvariant := by
  have hbounded : State.reset.BufBounded := fun c hc => absurd hc List.not_mem_nil
  have hdefined : State.reset.BufDefined := fun i hi => absurd hi (Nat.not_lt_zero i)
  exact ⟨⟨rfl, hbounded, hdefined, .inl rfl⟩, rfl⟩

end Sys2Proof.Machine
end

section
/-! The registers as the host sees them, after reset and with nothing on the port (10_state.md R35 to R39, R45). -/

namespace Sys2Proof.Machine

/-- Bits 7:4 of every register word are 0, whatever its two fields hold (10_state.md R38). -/
theorem statusWord_reserved (fault : Bool) (cause : BitVec 3) : (statusWord fault cause).extractLsb' 4 4 = 0 := by
  revert fault cause
  decide

/-- A legal `STATUS` is the word of its own two fields. -/
theorem StatusLegal.hostRead {s : State} (h : s.StatusLegal) : hostReadStatus s = s.status := by
  unfold hostReadStatus State.faultBit State.causeField
  rcases h with h | h | h | h | h <;> rw [h] <;> decide

/-- Settles O42: what the host reads is a register word, rebuilt from the two fields. -/
theorem hostReadsStatus : Obligations.HostReadsStatus := by
  intro s
  exact ⟨statusWord_reserved s.faultBit s.causeField, StatusLegal.hostRead⟩

@[simp] theorem assertReset_faultBit (s : State) : (assertReset s).faultBit = false := by
  rw [State.faultBit, assertReset_status]; rfl

@[simp] theorem assertReset_causeField (s : State) : (assertReset s).causeField = 0 := by
  rw [State.causeField, assertReset_status]; rfl

/-- Settles O44: the register after a reset is the word 0, so its fields are. -/
theorem registersAfterReset : Obligations.RegistersAfterReset := by
  refine ⟨rfl, rfl, rfl, rfl, fun s => ⟨assertReset_buf s, assertReset_rdata s, assertReset_faultBit s,
    assertReset_causeField s, ?_⟩⟩
  rw [assertReset_status]
  decide

/-- Settles O45: the port alone makes the machine move. -/
theorem noActionNoChange : Obligations.NoActionNoChange := by
  intro s hport
  rw [step, portStep, hport]

end Sys2Proof.Machine
end

section
/-! The span of a range: how long it is, and which bytes of the buffer it takes (20_memory.md R70, R73,
41_byte_assembler.md R144, R145). -/

namespace Sys2Proof.Machine

/-- An unclamped span has the bytes its bits need, and no more. -/
theorem spanOf_size_of_unclamped {start stop : Bound} {len : Nat} (h : RangeAccepted start stop len)
    (hin : absEnd stop / 8 + 1 ≤ (len : Int)) :
    (spanOf start stop len).size = ((spanOf start stop len).startBit + (spanOf start stop len).totalBits - 1) / 8 + 1 := by
  obtain ⟨hmin, hmax, hstart⟩ := h
  have h0 := absStart_nonneg start
  unfold totalBits at *
  simp only [spanOf, Span.size, totalBits]
  omega

/-- Settles O12: the bound of 9 is the resolver's, the exact length that of an unclamped span. -/
theorem spanLength : Obligations.SpanLength := by
  intro a b len r hres
  obtain ⟨haccepted, rfl⟩ := resolve_ok_inv hres
  obtain ⟨-, -, -, -, -, hnine, -, -⟩ := spanOf_bounds haccepted
  exact ⟨hnine, spanOf_size_of_unclamped haccepted⟩

theorem mem_spanIndices {e : Endian} {len : Nat} {r : Span} {x : Nat} :
    x ∈ spanIndices e len r ↔ ∃ j, j < r.size ∧ physIndex e len (r.startByte + j) = x := by
  simp [spanIndices]

/-- The little-endian span is its own interval. -/
theorem mem_spanIndices_little {len : Nat} {r : Span} {x : Nat} :
    x ∈ spanIndices .little len r ↔ r.startByte ≤ x ∧ x < r.endByte := by
  simp only [mem_spanIndices, physIndex, Span.size]
  exact ⟨fun ⟨j, hj, hx⟩ => by omega, fun ⟨hlo, hhi⟩ => ⟨x - r.startByte, by omega, by omega⟩⟩

/-- Inside the buffer, the big-endian span is the mirrored interval. -/
theorem mem_spanIndices_big {len : Nat} {r : Span} (hend : r.endByte ≤ len) {x : Nat} :
    x ∈ spanIndices .big len r ↔ len - r.endByte ≤ x ∧ x < len - r.startByte := by
  simp only [mem_spanIndices, physIndex, Span.size]
  exact ⟨fun ⟨j, hj, hx⟩ => by omega, fun ⟨hlo, hhi⟩ => ⟨len - 1 - r.startByte - x, by omega, by omega⟩⟩

theorem lt_of_mem_spanIndices {e : Endian} {len : Nat} {r : Span} (hend : r.endByte ≤ len) {x : Nat}
    (hx : x ∈ spanIndices e len r) : x < len := by
  obtain ⟨j, hj, rfl⟩ := mem_spanIndices.1 hx
  exact physIndex_lt (by unfold Span.size at hj; omega)

/-- No byte stands twice in a span: a view of the buffer is injective. -/
theorem spanIndices_nodup {e : Endian} {len : Nat} {r : Span} (hend : r.endByte ≤ len) : (spanIndices e len r).Nodup := by
  refine List.Nodup.map_on (fun j hj k hk heq => ?_) List.nodup_range
  have hj' := List.mem_range.1 hj
  have hk' := List.mem_range.1 hk
  unfold Span.size at hj' hk'
  have := (physIndex_inj (by omega) (by omega)).1 heq
  omega

/-- Settles O13: a resolved span ends inside the buffer, where both views are injective. -/
theorem spanPhysicalIndices : Obligations.SpanPhysicalIndices := by
  intro a b len r hres
  obtain ⟨haccepted, rfl⟩ := resolve_ok_inv hres
  obtain ⟨-, -, -, -, hend, -, -, -⟩ := spanOf_bounds haccepted
  exact ⟨fun _ => mem_spanIndices_little, fun _ => mem_spanIndices_big hend,
    fun _ => ⟨spanIndices_nodup hend, fun _ => lt_of_mem_spanIndices hend⟩⟩

end Sys2Proof.Machine
end

section
/-! The logical bits of one buffer: their physical place, and the two numberings of one bit (20_memory.md R62 to R67). -/

namespace Sys2Proof.Machine

/-- A logical bit is a bit of the physical byte that the view puts there. -/
theorem logicalBit_of_read {e : Endian} {s : State} {i : Nat} {v : Byte} (hi : i < 8 * s.params.len)
    (hv : s.buf.read (physIndex e s.params.len (i / 8)) = some v) : logicalBit e s i = v.getLsbD (i % 8) := by
  have hk : i / 8 < s.params.len := by omega
  rw [logicalBit, logicalByte, readLogical_of_lt hk, readByte_eq_ok.2 ⟨physIndex_lt hk, hv⟩]
  rfl

/-- Settles O14: the bits of the buffer's number are its logical bits. -/
theorem physicalPlaceOfLogicalBits : Obligations.PhysicalPlaceOfLogicalBits := by
  intro s i v hi
  rw [testBit_bufValue, testBit_bufValue]
  exact ⟨logicalBit_of_read (e := .little) hi, logicalBit_of_read (e := .big) hi⟩

theorem renumberBit_lt {e f : Endian} {len i : Nat} (hi : i < 8 * len) : renumberBit e f len i < 8 * len := by
  have hk : physIndex e len (physIndex f len (i / 8)) < len := physIndex_lt (physIndex_lt (by omega))
  unfold renumberBit
  omega

/-- One bit of the buffer under its two numbers (20_memory.md R66). -/
theorem logicalBit_renumberBit (e f : Endian) {s : State} {i : Nat} (hi : i < 8 * s.params.len) :
    logicalBit e s (renumberBit e f s.params.len i) = logicalBit f s i := by
  have hk : i / 8 < s.params.len := by omega
  have hp : physIndex f s.params.len (i / 8) < s.params.len := physIndex_lt hk
  have hbyte : renumberBit e f s.params.len i / 8 = physIndex e s.params.len (physIndex f s.params.len (i / 8)) := by
    unfold renumberBit; omega
  have hbit : renumberBit e f s.params.len i % 8 = i % 8 := by unfold renumberBit; omega
  rw [logicalBit, logicalBit, logicalByte, logicalByte, hbyte, hbit, readLogical_of_lt (physIndex_lt hp),
    readLogical_of_lt hk, physIndex_physIndex hp]

end Sys2Proof.Machine
end

section
/-! A race on the span, and a run without one (20_memory.md R75, R78, 30_encoding.md R105). -/

namespace Sys2Proof.Machine

/-- One byte of the span in the hands of another agent is a race. -/
theorem races_of_mem {i : Instr} {len x : Nat} {foreign : List Nat} {r : Span}
    (hres : resolve i.shape.start i.shape.stop len = .ok r) (hspan : x ∈ spanIndices i.shape.endian len r)
    (hforeign : x ∈ foreign) : races i len foreign = true := by
  simp only [races, hres, List.any_eq_true]
  exact ⟨x, hspan, List.contains_iff_mem.2 hforeign⟩

/-- Settles O37: the race check stands before the run. -/
theorem raceOnSpanRefused : Obligations.RaceOnSpanRefused := by
  intro s tx foreign rest i r x hl hr hp hd hw hres hspan hforeign
  rw [step_of_decode hl hr hp hd, if_pos hw, if_pos (races_of_mem hres hspan hforeign)]

/-- Settles O46: with the index check and the race check passed, the run is what is left. -/
theorem stepRunsDecodedCommand : Obligations.StepRunsDecodedCommand := by
  intro s tx foreign rest i hl hr hp hd hw hcalm
  rw [step_of_decode hl hr hp hd, if_pos hw, if_neg (Bool.eq_false_iff.1 hcalm)]
  rfl

end Sys2Proof.Machine
end

section
/-! Why a command can stop: not accepted, or a byte of its span without a value; never a byte that does not exist
(20_memory.md R73, R76). -/

namespace Sys2Proof.Machine

/-- A byte inside the buffer can only be undefined. -/
theorem readByte_error {s : State} {i : Nat} {why : Stop} (hi : i < s.params.len) (h : readByte s i = .error why) :
    why = .refusal .undefinedByte := by
  rw [readByte, if_pos hi] at h
  split at h
  · cases h
  · exact (Except.error.inj h).symm

/-- Assembly of a span inside the buffer can only meet an undefined byte. -/
theorem assemble_error {e : Endian} {s : State} {start n : Nat} {why : Stop} (hn : start + n ≤ s.params.len)
    (h : assemble e s start n = .error why) : why = .refusal .undefinedByte := by
  induction n with
  | zero => cases h
  | succ n ih =>
    rw [assemble] at h
    split at h
    · cases h
      exact ih (by omega) ‹_›
    · split at h
      · rename_i hread
        cases h
        have hk : start + n < s.params.len := by omega
        rw [readLogical_of_lt hk] at hread
        exact readByte_error (physIndex_lt hk) hread
      · cases h

theorem acceptance_cases {s : State} {why : Stop} (h : acceptance s = some why) :
    why = .refusal .reservedCause ∨ why = .fault .halted := by
  unfold acceptance at h
  split at h
  · exact .inl (Option.some.inj h).symm
  · split at h
    · exact .inr (Option.some.inj h).symm
    · cases h

theorem stop_outcome_eq_fault {why : Stop} {f : Fault} (h : why.outcome = .fault f) : why = .fault f := by
  cases why with
  | fault g => rw [Host.Outcome.fault.inj h]
  | refusal g => cases h

theorem fault_of_acceptance {s : State} {why : Stop} {f : Fault} (h : acceptance s = some why)
    (hf : why.outcome = .fault f) : f = .halted := by
  rcases acceptance_cases h with rfl | rfl
  · cases hf
  · exact (Host.Outcome.fault.inj hf).symm

/-- A resolved span ends inside the buffer. -/
theorem resolve_ok_end_le {start stop : Bound} {len : Nat} {r : Span} (h : resolve start stop len = .ok r) :
    r.startByte + r.size ≤ len := by
  obtain ⟨haccepted, rfl⟩ := resolve_ok_inv h
  obtain ⟨-, -, -, hle, hend, -, -, -⟩ := spanOf_bounds haccepted
  unfold Span.size
  omega

/-- Assembly of a resolved span answers no fault. -/
theorem assemble_span_ne_fault {e : Endian} {start stop : Bound} {s : State} {r : Span} {why : Stop} {f : Fault}
    (hres : resolve start stop s.params.len = .ok r) (h : assemble e s r.startByte r.size = .error why) :
    why.outcome ≠ .fault f := by
  rw [assemble_error (resolve_ok_end_le hres) h]
  exact fun hf => by cases hf

/-- The one fault that the read engine can answer. -/
theorem readCmd_fault {e : Endian} {w : Width} {start stop : Bound} {s : State} {f : Fault}
    (h : readCmd e w start stop s = .fault f) : f = .halted := by
  unfold readCmd at h
  split at h
  · exact fault_of_acceptance ‹_› h
  · split at h
    · cases h
    · split at h
      · exact absurd h (assemble_span_ne_fault ‹_› ‹_›)
      · cases h

/-- The one fault that the write engine can answer; disassembly into a resolved span cannot fail. -/
theorem writeCmd_fault {e : Endian} {w : Width} {start stop : Bound} {wdata : Word64} {s : State} {f : Fault}
    (h : writeCmd e w start stop wdata s = .fault f) : f = .halted := by
  unfold writeCmd at h
  split at h
  · exact fault_of_acceptance ‹_› h
  · split at h
    · cases h
    · rename_i r hres
      split at h
      · exact absurd h (assemble_span_ne_fault hres ‹_›)
      · rename_i acc hacc
        obtain ⟨m, hm, -⟩ := disassemble_spec (e := e) (s := s)
          (mergeField r (writeValue s.params.i32Ext w wdata) acc) (resolve_ok_end_le hres)
        rw [hm] at h
        cases h

theorem exec_fault {i : Instr} {s : State} {f : Fault} (h : exec i s = .fault f) : f = .halted := by
  rw [exec_eq_runShape, runShape] at h
  split at h
  · exact readCmd_fault h
  · exact writeCmd_fault h

/-- Settles O39: a command's accesses lie in its span, so it has no fault to answer but `halted`. -/
theorem noCommandReachesBeyondBuffer : Obligations.NoCommandReachesBeyondBuffer := by
  refine ⟨fun s x v hx => ?_, fun i s h => ?_⟩
  · have hout : ¬ x < s.params.len := by omega
    exact ⟨if_neg hout, if_neg hout⟩
  · cases exec_fault h

end Sys2Proof.Machine
end

section
/-! What a completed command leaves for the next one: the laws of 20_memory.md R68, R74 and R77. -/

namespace Sys2Proof.Machine

/-- A narrow read inside a wide one, in one directionality: both are the same logical bits. -/
theorem readCmd_narrow_inside_wide {e : Endian} {s : State} {a b c d : Bound} (hi : s.Inv) (hr : s.Ready)
    (hwide : RangeAccepted a b s.params.len) (hnarrow : RangeAccepted c d s.params.len)
    (hstart : absStart a ≤ absStart c) (hend : absEnd d ≤ absEnd b) :
    ∃ wide narrow, readCmd e .u64 a b s = .next (s.setRdata (some wide)) ∧
      readCmd e .u64 c d s = .next (s.setRdata (some narrow)) ∧
      ∀ j, narrow.getLsbD j =
        if (j : Int) < totalBits c d then wide.getLsbD (j + (absStart c - absStart a).toNat) else false := by
  obtain ⟨wide, hrunWide, hbitsWide⟩ := readCmd_accepted (e := e) (w := .u64) hi hr hwide
  obtain ⟨narrow, hrunNarrow, hbitsNarrow⟩ := readCmd_accepted (e := e) (w := .u64) hi hr hnarrow
  refine ⟨wide, narrow, hrunWide, hrunNarrow, fun j => ?_⟩
  rw [hbitsNarrow, hbitsWide]
  have h0 := absStart_nonneg a
  obtain ⟨-, hwideMax, -⟩ := hwide
  obtain ⟨-, hnarrowMax, -⟩ := hnarrow
  by_cases hj : (j : Int) < totalBits c d
  · have hinside : ((j + (absStart c - absStart a).toNat : Nat) : Int) < totalBits a b := by
      unfold totalBits at *; omega
    have hplace : (absStart a).toNat + (j + (absStart c - absStart a).toNat) = (absStart c).toNat + j := by omega
    rw [if_pos hj, hplace]
    simp [widthBits, show j < 64 by omega, show j < (totalBits c d).toNat by omega,
      show j + (absStart c - absStart a).toNat < 64 by omega,
      show j + (absStart c - absStart a).toNat < (totalBits a b).toNat by omega]
  · simp [hj, show ¬ j < (totalBits c d).toNat by omega]

/-- Settles O23: the two 64-bit reads of either directionality are its read engine. -/
theorem narrowReadInsideWideRead : Obligations.NarrowReadInsideWideRead := by
  intro s a b c d hi hr hwide hnarrow hstart hend p hp
  rcases List.mem_pair.1 hp with rfl | rfl
  · exact readCmd_narrow_inside_wide (e := .little) hi hr hwide hnarrow hstart hend
  · exact readCmd_narrow_inside_wide (e := .big) hi hr hwide hnarrow hstart hend

/-- A read that completed reads the same bits again: `RDATA` is no part of the buffer. -/
theorem readCmd_again {e : Endian} {w : Width} {a b : Bound} {s : State} {v : Word64} (hi : s.Inv) (hr : s.Ready)
    (ha : RangeAccepted a b s.params.len) (h : readCmd e w a b s = .next (s.setRdata (some v))) :
    readCmd e w a b (s.setRdata (some v)) = .next (s.setRdata (some v)) := by
  obtain ⟨first, hfirst, hbits⟩ := readCmd_accepted (e := e) (w := w) hi hr ha
  obtain ⟨second, hsecond, hbits'⟩ := readCmd_accepted (e := e) (w := w) (s := s.setRdata (some v)) (hi.setRdata _) hr ha
  have hv : v = first := by simpa [State.setRdata] using h.symm.trans hfirst
  have hsame : second = first := BitVec.eq_of_getLsbD_eq fun j _ => by
    rw [hbits, hbits', logicalBit_congr (s := s) (t := s.setRdata (some v)) rfl fun _ => rfl]
  rw [hsecond, hsame, ← hv]
  rfl

/-- A write that completed finds the field holding its value, so writing again changes no bit of the buffer. -/
theorem writeCmd_again {e : Endian} {w : Width} {a b : Bound} {v : Word64} {s t : State} (hi : s.Inv) (hr : s.Ready)
    (ha : RangeAccepted a b s.params.len) (h : writeCmd e w a b v s = .next t) : writeCmd e w a b v t = .next t := by
  obtain ⟨m, hm, hinv, hbits, -⟩ := writeCmd_accepted (e := e) (w := w) (v := v) hi hr ha
  cases h.symm.trans hm
  obtain ⟨m', hm', hinv', hbits', -⟩ := writeCmd_accepted (e := e) (w := w) (v := v) (s := s.setBuf m) hinv hr ha
  have hsame : m' = m := buf_eq_of_bits (e := e) hinv hinv' rfl fun i hlt => by
    rw [hbits' i hlt, hbits i hlt, State.setBuf_params]
    split <;> rfl
  rw [hm', hsame]
  rfl

/-- Settles O30: a next state that is ready comes from a completed read or a completed write, never from a fault. -/
theorem commandsAreIdempotent : Obligations.CommandsAreIdempotent := by
  intro i s t hi h ht
  rw [exec_eq_runShape, runShape] at h ⊢
  have hfault : ∀ c, t ≠ raiseFault c s := fun c heq =>
    Bool.false_ne_true (ht.symm.trans (heq ▸ raiseFault_halted c s))
  cases hop : i.shape.op with
  | read =>
    rw [hop] at h
    obtain ⟨hr, ⟨c, -, hc⟩ | ⟨r, acc, hres, -, rfl⟩⟩ := readCmd_inv h
    · exact absurd hc (hfault c)
    · exact readCmd_again hi hr (resolve_ok_inv hres).1 h
  | write =>
    rw [hop] at h
    obtain ⟨hr, ⟨c, -, hc⟩ | ⟨r, acc, hres, -, -⟩⟩ := writeCmd_inv h
    · exact absurd hc (hfault c)
    · exact writeCmd_again hi hr (resolve_ok_inv hres).1 h

/-- Bit `j` of the word with `n` low ones. -/
theorem getLsbD_lowOnes (n : Nat) {j : Nat} (hj : j < 64) :
    (BitVec.ofNat 64 (2 ^ n - 1)).getLsbD j = decide (j < n) := by
  rw [BitVec.getLsbD_ofNat, decide_eq_true hj, Bool.true_and, Nat.testBit_two_pow_sub_one]

/-- A zero-extended narrow value is the word masked to its low bits. -/
theorem setWidth_setWidth_eq_and (n : Nat) (v : Word64) :
    (v.setWidth n).setWidth 64 = v &&& BitVec.ofNat 64 (2 ^ n - 1) := by
  refine BitVec.eq_of_getLsbD_eq fun j hj => ?_
  rw [BitVec.getLsbD_and, getLsbD_lowOnes n hj, BitVec.getLsbD_setWidth, BitVec.getLsbD_setWidth, decide_eq_true hj,
    Bool.true_and, Bool.and_comm]

/-- The sign-extended 32-bit value, as masks (30_encoding.md R98). -/
theorem signExtend_eq_signedValue (v : Word64) : (v.setWidth 32).signExtend 64 = signedValue .sign v := by
  have hlow : (0xFFFFFFFF : Word64) = BitVec.ofNat 64 (2 ^ 32 - 1) := rfl
  have hhigh : (0xFFFFFFFF00000000 : Word64) = ~~~ BitVec.ofNat 64 (2 ^ 32 - 1) := rfl
  have hmsb : (v.setWidth 32).msb = v.getLsbD 31 := by simp [BitVec.msb_eq_getLsbD_last]
  refine BitVec.eq_of_getLsbD_eq fun j hj => ?_
  rw [BitVec.getLsbD_signExtend, hmsb, BitVec.getLsbD_setWidth]
  cases hsign : v.getLsbD 31 with
  | true =>
    have hval : signedValue .sign v = (v &&& 0xFFFFFFFF) ||| 0xFFFFFFFF00000000 := if_pos ⟨rfl, hsign⟩
    rw [hval, hlow, hhigh, BitVec.getLsbD_or, BitVec.getLsbD_and, BitVec.getLsbD_not, getLsbD_lowOnes 32 hj]
    by_cases hlt : j < 32 <;> simp [hj, hlt]
  | false =>
    have hval : signedValue .sign v = v &&& 0xFFFFFFFF :=
      if_neg fun ⟨_, h⟩ => Bool.false_ne_true (hsign.symm.trans h)
    rw [hval, hlow, BitVec.getLsbD_and, getLsbD_lowOnes 32 hj]
    by_cases hlt : j < 32 <;> simp [hj, hlt]

/-- The engine's write value is the one the statements name. -/
theorem writeValue_eq_writtenValue (ext : I32Ext) (w : Width) (v : Word64) : writeValue ext w v = writtenValue ext w v := by
  cases w with
  | u8 => exact setWidth_setWidth_eq_and 8 v
  | u16 => exact setWidth_setWidth_eq_and 16 v
  | u32 => exact setWidth_setWidth_eq_and 32 v
  | u64 => rfl
  | i32 =>
    cases ext with
    | sign => exact signExtend_eq_signedValue v
    | zero => exact setWidth_setWidth_eq_and 32 v

/-- A read after a completed write, bit by bit of the buffer and in the numbering of the read: the written bit inside
the written field, the bit from before elsewhere (20_memory.md R77). -/
theorem logicalBit_after_write {e f : Endian} {a b : Bound} {value : Word64} {s t : State} (hp : t.params = s.params)
    (hbits : ∀ k, k < 8 * s.params.len → logicalBit e t k =
      if InField a b k then value.getLsbD (k - (absStart a).toNat) else logicalBit e s k) (i : Nat) :
    logicalBit f t i =
      if i < 8 * s.params.len ∧ InField a b (renumberBit e f s.params.len i) then
        value.getLsbD (renumberBit e f s.params.len i - (absStart a).toNat)
      else logicalBit f s i := by
  by_cases hi : i < 8 * s.params.len
  · have hnow : logicalBit e t (renumberBit e f s.params.len i) = logicalBit f t i := by
      rw [← hp]
      exact logicalBit_renumberBit e f (hp ▸ hi)
    rw [← hnow, hbits _ (renumberBit_lt hi), logicalBit_renumberBit e f hi]
    simp only [hi, true_and]
  · rw [if_neg fun h => hi h.1, logicalBit_beyond (by rw [hp]; omega), logicalBit_beyond (by omega)]

/-- Two steps of the machine, one after the other. -/
theorem run_two {s t u : State} (hst : step s = .next t) (htu : step t = .next u) : Sys2Proof.core.run 2 s = .next u := by
  have hs : Sys2Proof.core.step s = .next t := hst
  have ht : Sys2Proof.core.step t = .next u := htu
  simp only [Host.Core.run, hs, ht]

/-- Settles O47: the first step runs the write, the second the read, on the buffer that the write left. -/
theorem readAfterWriteOverSteps : Obligations.ReadAfterWriteOverSteps := by
  intro s wr rd tx ty f g rest hi hr hwr hrd hwrAccepted hrdAccepted hdx hdy hwfx hwfy hrx hry hport
  have hlegal := hi.statusLegal
  obtain ⟨m, hwrite, hinv, hbuf, -⟩ := writeCmd_accepted (e := wr.shape.endian) (w := wr.shape.width)
    (v := wr.shape.wdata) (s := s.setPort (.command ty g :: rest)) (hi.setPort _) hr hwrAccepted
  obtain ⟨w, hread, hbits⟩ := readCmd_accepted (e := rd.shape.endian) (w := rd.shape.width)
    (s := (s.setBuf m).setPort rest) (hinv.setPort _) hr hrdAccepted
  have hstepWrite : step s = .next ((s.setPort (.command ty g :: rest)).setBuf m) := by
    refine (stepRunsDecodedCommand s tx f _ wr hlegal hr hport hdx hwfx hrx).trans ?_
    rw [exec_eq_runShape, runShape, hwr]
    exact hwrite
  have hstepRead : step ((s.setPort (.command ty g :: rest)).setBuf m) =
      .next (((s.setBuf m).setPort rest).setRdata (some w)) := by
    refine (stepRunsDecodedCommand ((s.setPort (.command ty g :: rest)).setBuf m) ty g rest rd hlegal hr rfl hdy hwfy hry).trans ?_
    rw [exec_eq_runShape, runShape, hrd]
    exact hread
  refine ⟨m, w, run_two hstepWrite hstepRead, fun j => ?_⟩
  have hbit := logicalBit_after_write (f := rd.shape.endian) (s := s) (t := (s.setBuf m).setPort rest) rfl hbuf
    ((absStart rd.shape.start).toNat + j)
  rw [hbits, hbit]
  simp only [← writeValue_eq_writtenValue]
  by_cases hj : j < widthBits rd.shape.width ∧ (j : Int) < totalBits rd.shape.start rd.shape.stop
  · obtain ⟨hwidth, hfield⟩ := hj
    simp [hwidth, hfield, show j < (totalBits rd.shape.start rd.shape.stop).toNat by omega]
  · have : ¬ (j < widthBits rd.shape.width ∧ j < (totalBits rd.shape.start rd.shape.stop).toNat) := by omega
    rw [if_neg hj, ← Bool.and_assoc, ← Bool.decide_and, decide_eq_false this, Bool.false_and]

end Sys2Proof.Machine
end

section
/-! The command word as a number: the place value of each field (30_encoding.md R91), so that a fact about words is
linear arithmetic over their fields. -/

namespace Sys2Proof

theorem getLsbD_eq_decide_mod (cmd : CmdWord) (k : Nat) : cmd.getLsbD k = decide (cmd.toNat / 2 ^ k % 2 = 1) := by
  rw [← BitVec.testBit_toNat, Nat.testBit_eq_decide_div_mod_eq]

theorem fieldOp_code (cmd : CmdWord) : (fieldOp cmd).code = cmd.toNat % 2 := by
  rw [fieldOp, getLsbD_eq_decide_mod, Nat.pow_zero, Nat.div_one]
  rcases Nat.mod_two_eq_zero_or_one cmd.toNat with h | h <;> simp [h, Op.code]

theorem fieldEnd_code (cmd : CmdWord) : (fieldEnd cmd).code = cmd.toNat / 2 % 2 := by
  rw [fieldEnd, getLsbD_eq_decide_mod, Nat.pow_one]
  rcases Nat.mod_two_eq_zero_or_one (cmd.toNat / 2) with h | h <;> simp [h, Endian.code]

theorem fieldWidth_toNat (cmd : CmdWord) : (fieldWidth cmd).toNat = cmd.toNat / 4 % 8 := by
  rw [fieldWidth, BitVec.extractLsb'_toNat, Nat.shiftRight_eq_div_pow]

theorem fieldSkind_toNat (cmd : CmdWord) : (fieldSkind cmd).toNat = cmd.toNat / 32 % 4 := by
  rw [fieldSkind, BitVec.extractLsb'_toNat, Nat.shiftRight_eq_div_pow]

theorem fieldEkind_toNat (cmd : CmdWord) : (fieldEkind cmd).toNat = cmd.toNat / 128 % 4 := by
  rw [fieldEkind, BitVec.extractLsb'_toNat, Nat.shiftRight_eq_div_pow]

theorem fieldRsvd_toNat (cmd : CmdWord) : (fieldRsvd cmd).toNat = cmd.toNat / 512 % 128 := by
  rw [fieldRsvd, BitVec.extractLsb'_toNat, Nat.shiftRight_eq_div_pow]

/-- A command word is its six fields and nothing else. -/
theorem toNat_eq_fields (cmd : CmdWord) :
    cmd.toNat = (fieldOp cmd).code + 2 * (fieldEnd cmd).code + 4 * (fieldWidth cmd).toNat +
      32 * (fieldSkind cmd).toNat + 128 * (fieldEkind cmd).toNat + 512 * (fieldRsvd cmd).toNat := by
  rw [fieldOp_code, fieldEnd_code, fieldWidth_toNat, fieldSkind_toNat, fieldEkind_toNat, fieldRsvd_toNat]
  omega

theorem Op.code_lt (o : Op) : o.code < 2 := by cases o <;> decide

theorem Endian.code_lt (e : Endian) : e.code < 2 := by cases e <;> decide

theorem Width.code_lt (w : Width) : w.code < 5 := by cases w <;> decide

/-- Each code of a command fits its field. -/
theorem Instr.codes_lt (i : Instr) :
    i.shape.op.code < 2 ∧ i.shape.endian.code < 2 ∧ i.shape.width.code < 5 ∧
      i.shape.start.kind < 3 ∧ i.shape.stop.kind < 3 :=
  ⟨Op.code_lt _, Endian.code_lt _, Width.code_lt _, Bound.kind_lt _, Bound.kind_lt _⟩

theorem Op.eq_of_code_eq {o p : Op} (h : o.code = p.code) : o = p := by
  cases o <;> cases p <;> trivial

theorem Endian.eq_of_code_eq {e f : Endian} (h : e.code = f.code) : e = f := by
  cases e <;> cases f <;> trivial

theorem toNat_matchWord (i : Instr) :
    i.matchWord.toNat = i.shape.op.code + 2 * i.shape.endian.code + 4 * i.shape.width.code := by
  obtain ⟨hop, hend, hwidth, -, -⟩ := i.codes_lt
  rw [Instr.matchWord, BitVec.toNat_ofNat]
  omega

/-- A bound kind at the place of its field; no bit of it is lost there. -/
theorem toNat_kind_shiftLeft (b : Bound) {place : Nat} (hplace : place ≤ 7) :
    (BitVec.ofNat 16 b.kind <<< place).toNat = b.kind <<< place := by
  have hkind := b.kind_lt
  have hpow : 2 ^ place ≤ 2 ^ 7 := Nat.pow_le_pow_right (by decide) hplace
  have hfits : b.kind * 2 ^ place ≤ 2 * 2 ^ 7 := Nat.mul_le_mul (by omega) hpow
  rw [BitVec.toNat_shiftLeft, BitVec.toNat_ofNat, Nat.mod_eq_of_lt (show b.kind < 2 ^ 16 by omega), Nat.shiftLeft_eq]
  omega

/-- The word of a command as a number. The ORs of R99 are sums, for no two parts share a bit. -/
theorem toNat_cmdWord (i : Instr) :
    i.cmdWord.toNat = i.shape.op.code + 2 * i.shape.endian.code + 4 * i.shape.width.code +
      32 * i.shape.start.kind + 128 * i.shape.stop.kind := by
  obtain ⟨hop, hend, hwidth, hstart, hstop⟩ := i.codes_lt
  rw [Instr.cmdWord, BitVec.toNat_or, BitVec.toNat_or, toNat_matchWord, toNat_kind_shiftLeft _ (by decide),
    toNat_kind_shiftLeft _ (by decide), Nat.or_comm _ (_ <<< 5), ← Nat.shiftLeft_add_eq_or_of_lt (by omega),
    Nat.or_comm _ (_ <<< 7), ← Nat.shiftLeft_add_eq_or_of_lt (by omega)]
  omega

end Sys2Proof
end

section
/-! What the decoder reads in the word of a command, and the round trip from a command (30_encoding.md R92 to R99). -/

namespace Sys2Proof

@[simp] theorem fieldOp_cmdWord (i : Instr) : fieldOp i.cmdWord = i.shape.op := by
  obtain ⟨hop, hend, hwidth, hstart, hstop⟩ := i.codes_lt
  exact Op.eq_of_code_eq (by rw [fieldOp_code, toNat_cmdWord]; omega)

@[simp] theorem fieldEnd_cmdWord (i : Instr) : fieldEnd i.cmdWord = i.shape.endian := by
  obtain ⟨hop, hend, hwidth, hstart, hstop⟩ := i.codes_lt
  exact Endian.eq_of_code_eq (by rw [fieldEnd_code, toNat_cmdWord]; omega)

@[simp] theorem fieldWidth_cmdWord (i : Instr) : fieldWidth i.cmdWord = BitVec.ofNat 3 i.shape.width.code := by
  obtain ⟨hop, hend, hwidth, hstart, hstop⟩ := i.codes_lt
  exact BitVec.eq_of_toNat_eq (by rw [fieldWidth_toNat, toNat_cmdWord, BitVec.toNat_ofNat]; omega)

@[simp] theorem fieldSkind_cmdWord (i : Instr) : fieldSkind i.cmdWord = BitVec.ofNat 2 i.shape.start.kind := by
  obtain ⟨hop, hend, hwidth, hstart, hstop⟩ := i.codes_lt
  exact BitVec.eq_of_toNat_eq (by rw [fieldSkind_toNat, toNat_cmdWord, BitVec.toNat_ofNat]; omega)

@[simp] theorem fieldEkind_cmdWord (i : Instr) : fieldEkind i.cmdWord = BitVec.ofNat 2 i.shape.stop.kind := by
  obtain ⟨hop, hend, hwidth, hstart, hstop⟩ := i.codes_lt
  exact BitVec.eq_of_toNat_eq (by rw [fieldEkind_toNat, toNat_cmdWord, BitVec.toNat_ofNat]; omega)

@[simp] theorem fieldRsvd_cmdWord (i : Instr) : fieldRsvd i.cmdWord = 0#7 := by
  obtain ⟨hop, hend, hwidth, hstart, hstop⟩ := i.codes_lt
  exact BitVec.eq_of_toNat_eq (by rw [fieldRsvd_toNat, toNat_cmdWord, BitVec.toNat_ofNat]; omega)

/-- Settles O3: each field of the word is read back as the code it was written from, so the row found is the
command's own. -/
theorem decodeOfEncode : Obligations.DecodeOfEncode := by
  intro i
  have hrow := rowOf_shape i
  simpa [decode, encode, decodeWidth_code, decodeBound_kind] using hrow

/-- Settles O1: the words are those that the encoder writes, and they decode by the round trip. -/
theorem workedEncodings : Obligations.WorkedEncodings :=
  ⟨rfl, decodeOfEncode (.rdleU32 (.included 8) (.excluded 24)),
    rfl, decodeOfEncode (.wrleU64 (.included 4) (.excluded 12) 0),
    rfl, decodeOfEncode (.rdleU32 .unbounded .unbounded)⟩

/-- Settles O2: the match word looks at the row alone, so the operands stay variables. -/
theorem opcodeTableRows : Obligations.OpcodeTableRows := by
  intro a b v
  and_intros <;> rfl

end Sys2Proof
end

section
/-! The round trip from a transaction: what decodes is the encoding of its command (30_encoding.md R99 to R102). -/

namespace Sys2Proof

theorem toNat_of_decodeWidth {code : BitVec 3} {w : Width} (h : decodeWidth code = some w) : code.toNat = w.code := by
  unfold decodeWidth at h
  split at h <;> cases h <;> assumption

/-- A bound that decodes: its kind is the field's, and its index the port's unless the bound is unbounded. -/
theorem kind_and_index_of_decodeBound {kind : BitVec 2} {idx : Nat} {b : Bound} (h : decodeBound kind idx = some b) :
    kind.toNat = b.kind ∧ b.index = if kind = 2 then 0 else idx := by
  unfold decodeBound at h
  split at h <;> cases h <;> simp_all [Bound.kind, Bound.index, ← BitVec.toNat_inj]

/-- The word of a transaction that decodes is the word of its command. -/
theorem cmd_eq_cmdWord_of_decode {t : Transaction} {i : Instr} (h : decode t = .ok i) : t.cmd = i.cmdWord := by
  obtain ⟨hrsvd, hwidth, hstart, hstop, hop, hend, -⟩ := decode_inv h
  obtain ⟨hskind, -⟩ := kind_and_index_of_decodeBound hstart
  obtain ⟨hekind, -⟩ := kind_and_index_of_decodeBound hstop
  refine BitVec.eq_of_toNat_eq ?_
  rw [toNat_eq_fields, toNat_cmdWord, hop, hend, toNat_of_decodeWidth hwidth, hskind, hekind, hrsvd]
  rfl

theorem low_and_selecting : ∀ n < 32, BitVec.ofNat 16 n &&& 0xFE1F = BitVec.ofNat 16 n := by decide

theorem kind_and_selecting :
    ∀ k < 3, (BitVec.ofNat 16 k <<< 5) &&& 0xFE1F = 0#16 ∧ (BitVec.ofNat 16 k <<< 7) &&& 0xFE1F = 0#16 := by decide

/-- The mask 0xFE1F keeps the match word and clears the two bound kinds. -/
theorem cmdWord_and_selecting (i : Instr) : i.cmdWord &&& 0xFE1F = i.matchWord := by
  obtain ⟨hop, hend, hwidth, hstart, hstop⟩ := i.codes_lt
  have hmatch : i.matchWord &&& 0xFE1F = i.matchWord := low_and_selecting _ (by omega)
  obtain ⟨hstart0, -⟩ := kind_and_selecting _ hstart
  obtain ⟨-, hstop0⟩ := kind_and_selecting _ hstop
  rw [Instr.cmdWord, BitVec.and_or_distrib_right, BitVec.and_or_distrib_right, hmatch, hstart0, hstop0,
    BitVec.or_zero, BitVec.or_zero]

/-- Settles O4: the word by its fields, each operand by the rule that says when it is ignored. -/
theorem encodeOfDecode : Obligations.EncodeOfDecode := by
  intro t i h
  have hcmd := cmd_eq_cmdWord_of_decode h
  obtain ⟨-, -, hstart, hstop, hop, -, hwdata⟩ := decode_inv h
  obtain ⟨-, hsidx⟩ := kind_and_index_of_decodeBound hstart
  obtain ⟨-, heidx⟩ := kind_and_index_of_decodeBound hstop
  refine ⟨?_, hcmd ▸ cmdWord_and_selecting i⟩
  rw [encode, Machine.normalTransaction, hop, ← hcmd, hsidx, heidx, hwdata]

end Sys2Proof
end

section
/-! The illegal words (30_encoding.md R100): which the decoder rejects, and the step on one of them. -/

namespace Sys2Proof

theorem decodeWidth_eq_none {code : BitVec 3} : decodeWidth code = none ↔ 5 ≤ code.toNat := by
  unfold decodeWidth
  split <;> simp_all
  omega

theorem decodeBound_eq_none {kind : BitVec 2} {idx : Nat} : decodeBound kind idx = none ↔ kind = 3 := by
  have hlt := kind.isLt
  unfold decodeBound
  split <;> simp_all [← BitVec.toNat_inj]
  omega

/-- The one row that a legal width does not have (R100 (c)). -/
theorem rowOf_error_iff {op : Op} {e : Endian} {w : Width} {start stop : Bound} {wdata : Word64} :
    (∃ why, rowOf op e w start stop wdata = .error why) ↔ op = .read ∧ w = .i32 := by
  cases op with
  | write => simp [rowOf]
  | read => cases e <;> cases w <;> simp [rowOf, readRow]

theorem fieldOp_eq_read {cmd : CmdWord} : fieldOp cmd = .read ↔ cmd.getLsbD 0 = false := by
  unfold fieldOp
  split <;> simp_all

theorem Width.code_eq_four {w : Width} : w.code = 4 ↔ w = .i32 := by cases w <;> simp [Width.code]

end Sys2Proof

namespace Sys2Proof.Machine

/-- The decoder's checks, taken one after the other, are (a), (b), (d), (e) and at the row (c). -/
theorem decode_error_iff (t : Transaction) : (∃ why, decode t = .error why) ↔ IllegalWord t.cmd := by
  have hwidth : decodeWidth (fieldWidth t.cmd) = none ↔ 5 ≤ (t.cmd.extractLsb' 2 3).toNat := decodeWidth_eq_none
  have hstart : decodeBound (fieldSkind t.cmd) t.sidx = none ↔ t.cmd.extractLsb' 5 2 = 3 := decodeBound_eq_none
  have hstop : decodeBound (fieldEkind t.cmd) t.eidx = none ↔ t.cmd.extractLsb' 7 2 = 3 := decodeBound_eq_none
  unfold decode IllegalWord
  rw [← hwidth, ← hstart, ← hstop]
  split
  next hrsvd => exact iff_of_true ⟨_, rfl⟩ (.inl hrsvd)
  next hrsvd =>
    split
    next hw => exact iff_of_true ⟨_, rfl⟩ (.inr (.inl hw))
    next w hw =>
      have hcode : (t.cmd.extractLsb' 2 3).toNat = w.code := toNat_of_decodeWidth hw
      split
      next ha => exact iff_of_true ⟨_, rfl⟩ (.inr (.inr (.inr (.inl ha))))
      next a ha =>
        split
        next hb => exact iff_of_true ⟨_, rfl⟩ (.inr (.inr (.inr (.inr hb))))
        next b hb =>
          rw [rowOf_error_iff, fieldOp_eq_read, hcode, Width.code_eq_four, hw, ha, hb]
          have hrsvd0 : t.cmd.extractLsb' 9 7 = 0 := Decidable.not_not.1 hrsvd
          simp only [hrsvd0, ne_eq, not_true, reduceCtorEq, false_or, or_false]

/-- The answer of a step to an illegal command word on the port of a ready machine, whatever other agents do. -/
theorem step_of_decode_error {s : State} {tx : Transaction} {foreign : List Nat} {rest : List PortEvent} {why : Illegal}
    (hl : s.StatusLegal) (hr : s.Ready) (hp : s.port = .command tx foreign :: rest) (hd : decode tx = .error why) :
    step s = .next (raiseFault .illegalCommand (s.setPort rest)) := by
  rw [step_of_port_command hp, offerCommand, acceptance_setPort, acceptance_ready hl hr, hd]

/-- Settles O5: the words by the decoder's checks, the step by fault entry, the count over the 32 words. -/
theorem illegalWordsRaiseIllegalCommand : Obligations.IllegalWordsRaiseIllegalCommand := by
  refine ⟨decode_error_iff, fun s t foreign rest hl hr hp hillegal => ?_, by decide⟩
  obtain ⟨why, hd⟩ := (decode_error_iff t).2 hillegal
  exact step_of_decode_error hl hr hp hd

end Sys2Proof.Machine
end

section
/-! The bits of `WDATA` above the value width (30_encoding.md R98). -/

namespace Sys2Proof.Machine

/-- The write value depends on the low bits of `WDATA` alone, as many as the value width has. -/
theorem writeValue_congr (ext : I32Ext) {w : Width} {u v : Word64}
    (h : u.extractLsb' 0 (widthBits w) = v.extractLsb' 0 (widthBits w)) : writeValue ext w u = writeValue ext w v := by
  have hw : widthBits w ≤ 64 := by cases w <;> decide
  rw [← BitVec.setWidth_eq_extractLsb' hw, ← BitVec.setWidth_eq_extractLsb' hw] at h
  cases w with
  | u8 => exact congrArg (BitVec.setWidth 64) h
  | u16 => exact congrArg (BitVec.setWidth 64) h
  | u32 => exact congrArg (BitVec.setWidth 64) h
  | u64 => exact (BitVec.setWidth_eq u).symm.trans (h.trans (BitVec.setWidth_eq v))
  | i32 =>
    cases ext with
    | sign => exact congrArg (BitVec.signExtend 64) h
    | zero => exact congrArg (BitVec.setWidth 64) h

theorem writeCmd_congr (e : Endian) {w : Width} (a b : Bound) {u v : Word64} (s : State)
    (h : u.extractLsb' 0 (widthBits w) = v.extractLsb' 0 (widthBits w)) :
    writeCmd e w a b u s = writeCmd e w a b v s := by
  rw [writeCmd, writeCmd, writeValue_congr _ h]

/-- Settles O6: the commands named are the write engine at the four narrow widths, in both directionalities. -/
theorem upperWriteBitsIgnored : Obligations.UpperWriteBitsIgnored := by
  intro s a b v w
  refine ⟨fun h8 => ?_, fun h16 => ?_, fun h32 => ?_⟩
  · exact ⟨writeCmd_congr .little (w := .u8) a b s h8, writeCmd_congr .big (w := .u8) a b s h8⟩
  · exact ⟨writeCmd_congr .little (w := .u16) a b s h16, writeCmd_congr .big (w := .u16) a b s h16⟩
  · exact ⟨writeCmd_congr .little (w := .u32) a b s h32, writeCmd_congr .big (w := .u32) a b s h32,
      writeCmd_congr .little (w := .i32) a b s h32, writeCmd_congr .big (w := .i32) a b s h32⟩

end Sys2Proof.Machine
end

section
/-! What the range resolver answers: the fault of each range it turns down, and the tuple of each range it accepts
(40_range_resolver.md R121 to R133). -/

namespace Sys2Proof.Machine

/-- A resolved span is empty exactly when it begins at the end of the buffer: the last bit of the field is at or after
its first, so only the clamp to `len` can bring the end byte down to the start byte (R131). -/
theorem spanOf_size_eq_zero_iff {start stop : Bound} {len : Nat} (h : RangeAccepted start stop len) :
    (spanOf start stop len).size = 0 ↔ (spanOf start stop len).startByte = len := by
  obtain ⟨hwidth, -, hstart⟩ := h
  have h0 := absStart_nonneg start
  unfold totalBits at hwidth
  simp only [spanOf, Span.size]
  omega

/-- An unclamped span has room for every bit of the field (R131). -/
theorem spanOf_holds_field_of_unclamped {start stop : Bound} {len : Nat} (h : RangeAccepted start stop len)
    (hin : absEnd stop / 8 + 1 ≤ (len : Int)) :
    (spanOf start stop len).startBit + (spanOf start stop len).totalBits ≤ 8 * (spanOf start stop len).size := by
  have hsize := spanOf_size_of_unclamped h hin
  omega

/-- Settles O10: the bounds are those of the accepted tuple; a bit beyond the buffer is beyond a span that ends in it. -/
theorem resolverPostconditions : Obligations.ResolverPostconditions := by
  intro a b len r hres
  obtain ⟨haccepted, rfl⟩ := resolve_ok_inv hres
  obtain ⟨hbit, hmin, hmax, hle, hend, hnine, -, -⟩ := spanOf_bounds haccepted
  refine ⟨Nat.le_of_lt_succ hbit, hmin, hmax, hle, hend, hnine, spanOf_size_eq_zero_iff haccepted,
    spanOf_holds_field_of_unclamped haccepted, fun _ i _ hi => ?_⟩
  calc (spanOf a b len).endByte ≤ len := hend
    _ ≤ i / 8 := by omega

/-- The three faults of the resolver, each with its exact condition (R124, R125, R129). The conditions exclude each
other, so the order of the checks (R130) does not show in them. -/
theorem resolve_error_iff {start stop : Bound} {len : Nat} {c : Cause} :
    resolve start stop len = .error c ↔
      (c = .fieldTooWide ∧ 64 < totalBits start stop) ∨
      (c = .fieldEmpty ∧ totalBits start stop < 1) ∨
      (c = .rangeOutsideBuffer ∧ 1 ≤ totalBits start stop ∧ totalBits start stop ≤ 64 ∧
        (len : Int) < absStart start / 8) := by
  constructor
  · intro h
    rcases resolve_cases start stop len with
      ⟨hwide, hc⟩ | ⟨hempty, hc⟩ | ⟨hmin, hmax, houtside, hc⟩ | ⟨-, hc⟩
    · exact .inl ⟨Except.error.inj (h.symm.trans hc), hwide⟩
    · exact .inr (.inl ⟨Except.error.inj (h.symm.trans hc), hempty⟩)
    · exact .inr (.inr ⟨Except.error.inj (h.symm.trans hc), hmin, hmax, houtside⟩)
    · exact nomatch h.symm.trans hc
  · have hcases := resolve_cases start stop len
    rintro (⟨rfl, hwide⟩ | ⟨rfl, hempty⟩ | ⟨rfl, hmin, hmax, houtside⟩)
    · exact (hcases.resolve_right (by omega)).2
    · exact ((hcases.resolve_left (by omega)).resolve_right (by omega)).2
    · exact (((hcases.resolve_left (by omega)).resolve_left (by omega)).resolve_right (by omega)).2.2.2

theorem resolve_eq_fieldTooWide_iff {start stop : Bound} {len : Nat} :
    resolve start stop len = .error .fieldTooWide ↔ 64 < totalBits start stop := by
  simp [resolve_error_iff]

theorem resolve_eq_fieldEmpty_iff {start stop : Bound} {len : Nat} :
    resolve start stop len = .error .fieldEmpty ↔ totalBits start stop < 1 := by
  simp [resolve_error_iff]

theorem resolve_eq_rangeOutsideBuffer_iff {start stop : Bound} {len : Nat} :
    resolve start stop len = .error .rangeOutsideBuffer ↔
      1 ≤ totalBits start stop ∧ totalBits start stop ≤ 64 ∧ (len : Int) < absStart start / 8 := by
  simp [resolve_error_iff]

/-- An illegal command word is the decoder's fault, never the resolver's. -/
theorem resolve_ne_illegalCommand {start stop : Bound} {len : Nat} :
    resolve start stop len ≠ .error .illegalCommand := by
  simp [resolve_error_iff]

/-- Settles O11, by the condition of each fault. -/
theorem resolverFaultCauses : Obligations.ResolverFaultCauses := fun _ _ _ =>
  ⟨resolve_eq_fieldTooWide_iff, resolve_eq_fieldEmpty_iff, resolve_eq_rangeOutsideBuffer_iff,
    resolve_ne_illegalCommand⟩

/-- An end that excludes bit 0 lies before every start: the absolute end bit -1 does not wrap (R122). -/
theorem resolve_excluded_zero (start : Bound) (len : Nat) :
    resolve start (.excluded 0) len = .error .fieldEmpty := by
  have h0 := absStart_nonneg start
  have hend : absEnd (.excluded 0) = -1 := rfl
  exact resolve_eq_fieldEmpty_iff.2 (by unfold totalBits; omega)

/-- Settles O7: the absolute bits by the three kinds of bound, the empty field by its width. -/
theorem absoluteBitsOfBounds : Obligations.AbsoluteBitsOfBounds :=
  ⟨fun _ => ⟨rfl, rfl, rfl⟩, fun _ => ⟨rfl, rfl, rfl⟩, absStart_nonneg,
    fun b len => ⟨rfl, resolve_excluded_zero b len⟩⟩

/-- Settles O9: the absolute bits of an accepted range are at least 0, so its tuple in `Nat` is the one in `Int`. -/
theorem resolvedTuple : Obligations.ResolvedTuple := by
  intro a b len haccepted
  refine ⟨spanOf a b len, resolve_accepted haccepted, ?_⟩
  have h0 := absStart_nonneg a
  obtain ⟨hwidth, -, -⟩ := haccepted
  unfold totalBits at hwidth
  have hstart : ((absStart a).toNat : Int) = absStart a := Int.toNat_of_nonneg h0
  have hstop : ((absEnd b).toNat : Int) = absEnd b := Int.toNat_of_nonneg (by omega)
  have htotal : ((totalBits a b).toNat : Int) = totalBits a b := Int.toNat_of_nonneg (by unfold totalBits; omega)
  simp only [spanOf]
  push_cast [hstart, hstop, htotal]
  exact ⟨rfl, rfl, rfl, rfl⟩

/-- The first byte of the buffer resolves alike in every buffer that has it. -/
theorem resolve_first_byte {len : Nat} (h : 1 ≤ len) :
    resolve (.included 0) (.excluded 8) len = .ok ⟨0, 8, 0, 1⟩ := by
  have haccepted : RangeAccepted (.included 0) (.excluded 8) len := ⟨by decide, by decide, Int.natCast_nonneg len⟩
  have hspan : spanOf (.included 0) (.excluded 8) len = ⟨0, 8, 0, 1⟩ :=
    congrArg (Span.mk 0 8 0) (Nat.min_eq_left h)
  rw [resolve_accepted haccepted, hspan]

/-- Settles O8: the tuples at a fixed `LEN` by evaluation, the faults for every `LEN` by the width of their range. -/
theorem resolverWorkedExamples : Obligations.ResolverWorkedExamples := by
  refine ⟨rfl, rfl, fun _ => resolve_first_byte, rfl, rfl, fun _ => ?wide, fun _ => ?empty, resolve_excluded_zero _,
    fun _ => ?emptyUnbounded, rfl, rfl⟩
  case wide => exact resolve_eq_fieldTooWide_iff.2 (by decide)
  case empty => exact resolve_eq_fieldEmpty_iff.2 (by decide)
  case emptyUnbounded => exact resolve_eq_fieldEmpty_iff.2 (by decide)

end Sys2Proof.Machine
end

section
/-! The accumulator as a number: assembly, the source's fold and disassembly of a span, the empty one among them
(41_byte_assembler.md R140 to R146). -/

namespace Sys2Proof.Machine

/-- Assembly is the weighted sum of R140, cut to the accumulator's 128 bits. -/
theorem assemble_eq_spanValue {e : Endian} {s : State} (hd : s.BufDefined) {start n : Nat}
    (hn : start + n ≤ s.params.len) : assemble e s start n = .ok (BitVec.ofNat 128 (spanValue e s start n)) := by
  obtain ⟨acc, hacc, hbits⟩ := assemble_spec (e := e) hd hn
  have hsum : acc = BitVec.ofNat 128 (spanValue e s start n) := BitVec.eq_of_getLsbD_eq fun i _ => by
    have hbyte : (8 * start + i) / 8 = start + i / 8 := by omega
    have hbit : (8 * start + i) % 8 = i % 8 := by omega
    rw [hbits, BitVec.getLsbD_ofNat, testBit_spanValue, Bool.and_assoc, logicalBit, hbyte, hbit]
  rw [hacc, hsum]

/-- Nine bytes fit the accumulator with room to spare (R142). -/
theorem spanValue_lt_of_le_nine (e : Endian) (s : State) (start : Nat) {n : Nat} (hnine : n ≤ 9) :
    spanValue e s start n < 2 ^ 72 :=
  (spanValue_lt e s start n).trans_le (Nat.pow_le_pow_right (by decide) (by omega))

/-- Settles O15: a sum below `2^72` is not cut by the accumulator's 128 bits. -/
theorem assemblyIsWeightedSum : Obligations.AssemblyIsWeightedSum := by
  intro e s start n hd hn hnine
  have hlt := spanValue_lt_of_le_nine e s start hnine
  have hsum : (BitVec.ofNat 128 (spanValue e s start n)).toNat = spanValue e s start n :=
    Nat.mod_eq_of_lt (hlt.trans (by decide))
  exact ⟨_, assemble_eq_spanValue hd hn, hsum, hsum.trans_lt hlt⟩

/-- The weighted sum taken from the span's first byte. -/
theorem spanValue_succ_left (e : Endian) (s : State) (start n : Nat) :
    spanValue e s start (n + 1) = 2 ^ 8 * spanValue e s (start + 1) n + logicalByte e s start := by
  induction n with
  | zero => simp [spanValue]
  | succ n ih =>
    calc spanValue e s start (n + 2)
      _ = 2 ^ 8 * spanValue e s (start + 1) n + logicalByte e s start +
            logicalByte e s (start + (n + 1)) * 2 ^ (8 * (n + 1)) := by rw [spanValue, ih]
      _ = 2 ^ 8 * (spanValue e s (start + 1) n + logicalByte e s (start + 1 + n) * 2 ^ (8 * n)) +
            logicalByte e s start := by rw [show start + (n + 1) = start + 1 + n by omega]; ring

/-- The fold reaches the span's first byte last. -/
theorem foldSpan_succ (e : Endian) (s : State) (start n : Nat) :
    foldSpan e s start (n + 1) =
      (foldSpan e s (start + 1) n <<< 8) ||| BitVec.ofNat 128 (logicalByte e s start) := by
  simp [foldSpan, List.range_succ_eq_map, List.foldr_map, Nat.add_assoc, Nat.add_comm 1]

/-- One round of the fold is one of the sum: shifting in a byte is `acc * 2^8 + byte`. -/
theorem shiftLeft_or_byte (x : Nat) {b : Nat} (hb : b < 2 ^ 8) :
    (BitVec.ofNat 128 x <<< 8) ||| BitVec.ofNat 128 b = BitVec.ofNat 128 (2 ^ 8 * x + b) := by
  rw [Nat.two_pow_add_eq_or_of_lt hb, BitVec.ofNat_or, BitVec.shiftLeft_eq_mul_twoPow, Nat.mul_comm, BitVec.ofNat_mul]
  rfl

theorem foldSpan_eq_spanValue (e : Endian) (s : State) (start n : Nat) :
    foldSpan e s start n = BitVec.ofNat 128 (spanValue e s start n) := by
  induction n generalizing start with
  | zero => rfl
  | succ n ih => rw [foldSpan_succ, ih, shiftLeft_or_byte _ (logicalByte_lt e s start), spanValue_succ_left]

/-- Settles O16: assembly and the fold are both the weighted sum, cut to 128 bits. -/
theorem foldEqualsAssembly : Obligations.FoldEqualsAssembly := by
  intro e s start n hd hn
  rw [assemble_eq_spanValue hd hn, foldSpan_eq_spanValue]

/-- Settles O17: what disassembly puts at a physical index is what the view reads back there. -/
theorem disassemblyWritesSpan : Obligations.DisassemblyWritesSpan := by
  intro e s start n acc hn
  obtain ⟨m, hm, -, -, hspan, hframe⟩ := disassemble_spec (e := e) acc hn
  refine ⟨m, hm, fun j hj => ?_, hframe⟩
  have hin : start + j < s.params.len := by omega
  rw [readLogical_of_lt (s := { s with buf := m }) hin]
  exact readByte_eq_ok.2 ⟨physIndex_lt hin, hspan j hj⟩

/-- An accepted range that starts at `LEN` resolves to a span of no bytes. -/
theorem resolve_empty_span {a b : Bound} {len : Nat} (haccepted : RangeAccepted a b len)
    (hstart : absStart a / 8 = (len : Int)) : ∃ r, resolve a b len = .ok r ∧ r.size = 0 := by
  have hbyte : (spanOf a b len).startByte = len := by
    show (absStart a).toNat / 8 = len
    omega
  exact ⟨_, resolve_accepted haccepted, (spanOf_size_eq_zero_iff haccepted).2 hbyte⟩

theorem readResult_zero (w : Width) (r : Span) : readResult w r 0 = 0 := by
  simp [readResult, fieldOf]

/-- A read of an empty span assembles nothing, so it reads no byte of `BUF`, and gives 0 (R146). -/
theorem readCmd_empty_span {e : Endian} {w : Width} {a b : Bound} {s : State} {r : Span} (hl : s.StatusLegal)
    (hr : s.Ready) (hres : resolve a b s.params.len = .ok r) (hempty : r.size = 0) :
    readCmd e w a b s = .next (s.setRdata (some 0)) := by
  simp only [readCmd, acceptance_ready hl hr, hres, hempty, assemble, readResult_zero]

/-- A write to an empty span disassembles nothing, whatever the merged accumulator is (R146). -/
theorem writeCmd_empty_span {e : Endian} {w : Width} {a b : Bound} {v : Word64} {s : State} {r : Span}
    (hl : s.StatusLegal) (hr : s.Ready) (hres : resolve a b s.params.len = .ok r) (hempty : r.size = 0) :
    writeCmd e w a b v s = .next s := by
  simp only [writeCmd, acceptance_ready hl hr, hres, hempty, assemble, disassemble]

/-- Settles O18: the engine of the command's row, on the empty span that its range resolves to. -/
theorem emptySpanReadsZeroWritesNothing : Obligations.EmptySpanReadsZeroWritesNothing := by
  intro i s hl hr haccepted hstart
  obtain ⟨r, hres, hempty⟩ := resolve_empty_span haccepted hstart
  rw [exec_eq_runShape]
  constructor
  · intro hop
    simp only [runShape, hop]
    exact readCmd_empty_span hl hr hres hempty
  · intro hop
    simp only [runShape, hop]
    exact writeCmd_empty_span hl hr hres hempty

end Sys2Proof.Machine
end

section
/-! The read commands: the closed form of their result, their effects, and the symmetry of the two directionalities
(42_read.md R160 to R174). -/

namespace Sys2Proof.Machine

/-- A read command runs the read engine of its row (42_read.md R164 to R171). -/
theorem exec_read {i : Instr} (hop : i.shape.op = .read) (s : State) :
    exec i s = readCmd i.shape.endian i.shape.width i.shape.start i.shape.stop s := by
  rw [exec_eq_runShape, runShape, hop]

/-- Bit `j` of the closed form: the division moves bit `abs_start` to the bottom, and each modulus cuts the bits above
its width. -/
theorem getLsbD_closedField (e : Endian) (bits : Nat) (a b : Bound) (s : State) (j : Nat) :
    (closedField e bits a b s).getLsbD j =
      (decide (j < 64) && (decide (j < bits) && (decide (j < (totalBits a b).toNat) &&
        logicalBit e s ((absStart a).toNat + j)))) := by
  rw [closedField, BitVec.getLsbD_ofNat, Nat.testBit_mod_two_pow, Nat.testBit_mod_two_pow, Nat.testBit_div_two_pow,
    testBit_bufValue, Nat.add_comm j]

/-- An accepted read writes the closed form of R172 into `RDATA`, and nothing else: both are the same bits of the
buffer. -/
theorem readCmd_eq_closedField {e : Endian} {w : Width} {a b : Bound} {s : State} (hi : s.Inv) (hr : s.Ready)
    (ha : RangeAccepted a b s.params.len) :
    readCmd e w a b s = .next (s.setRdata (some (closedField e (widthBits w) a b s))) := by
  obtain ⟨v, hv, hbits⟩ := readCmd_accepted (e := e) (w := w) hi hr ha
  have hclosed : v = closedField e (widthBits w) a b s := BitVec.eq_of_getLsbD_eq fun j hj => by
    rw [hbits, getLsbD_closedField, decide_eq_true hj, Bool.true_and]
  rw [hv, hclosed]

/-- A range fault is taken by the read engine before any byte is read (60_exceptions.md R237). -/
theorem readCmd_range_fault {e : Endian} {w : Width} {a b : Bound} {s : State} {c : Cause} (hi : s.Inv) (hr : s.Ready)
    (hres : resolve a b s.params.len = .error c) : readCmd e w a b s = .next (raiseFault c s) :=
  runShape_fault (x := ⟨.read, e, w, a, b, 0⟩) hi.statusLegal hr hres

/-- The range of a command is accepted or turned down with a cause. -/
theorem rangeAccepted_or_fault (a b : Bound) (len : Nat) :
    RangeAccepted a b len ∨ ∃ c, resolve a b len = .error c := by
  cases hres : resolve a b len with
  | ok r => exact .inl (resolve_ok_inv hres).1
  | error c => exact .inr ⟨c, rfl⟩

/-- Settles O19: each of the eight is the read engine at its directionality and width. -/
theorem readsClosedForm : Obligations.ReadsClosedForm := by
  intro s a b hi hr ha
  have hread : ∀ e w, readCmd e w a b s = .next { s with rdata := some (closedField e (widthBits w) a b s) } :=
    fun _ _ => readCmd_eq_closedField hi hr ha
  exact ⟨hread .little .u8, hread .little .u16, hread .little .u32, hread .little .u64,
    hread .big .u8, hread .big .u16, hread .big .u32, hread .big .u64⟩

/-- The words that a fault of the resolver leaves in `STATUS` (10_state.md R37). -/
theorem statusWord_of_resolve_error {a b : Bound} {len : Nat} {c : Cause} (h : resolve a b len = .error c) :
    statusWord true c.code = 0x03 ∨ statusWord true c.code = 0x05 ∨ statusWord true c.code = 0x07 := by
  rw [statusWord_code]
  cases c with
  | fieldTooWide => exact .inl rfl
  | fieldEmpty => exact .inr (.inl rfl)
  | rangeOutsideBuffer => exact .inr (.inr rfl)
  | illegalCommand => exact absurd h resolve_ne_illegalCommand

/-- Settles O20, by the resolver's answer on a ready machine and by the acceptance check on a halted one. -/
theorem readEffects : Obligations.ReadEffects := by
  intro i s hop hi
  refine ⟨fun hr => ?ready, fun hh => exec_not_accepted (acceptance_halted hi.statusLegal hh) i⟩
  rw [exec_read hop]
  rcases rangeAccepted_or_fault i.shape.start i.shape.stop s.params.len with ha | ⟨c, hres⟩
  · exact .inl ⟨_, readCmd_eq_closedField hi hr ha⟩
  · exact .inr ⟨_, statusWord_of_resolve_error hres, readCmd_range_fault hi hr hres⟩

section Reversed

variable {s t : State} (hs : s.Inv) (hp : t.params = s.params)
  (hrev : ∀ k, k < s.params.len → t.buf.read k = s.buf.read (s.params.len - 1 - k))

include hs hp hrev

/-- A logical bit of the big-endian view is the same logical bit of the little-endian view of the reversed buffer. -/
theorem logicalBit_reversed (i : Nat) : logicalBit .little t i = logicalBit .big s i := by
  obtain ⟨-, -, hdefined, -⟩ := hs
  by_cases hi : i < 8 * s.params.len
  · have hk : i / 8 < s.params.len := by omega
    obtain ⟨v, hv⟩ := Option.isSome_iff_exists.1 (hdefined _ (physIndex_lt (e := .big) hk))
    have hv' : t.buf.read (physIndex .little t.params.len (i / 8)) = some v := (hrev _ hk).trans hv
    rw [logicalBit_of_read hi hv, logicalBit_of_read (hp ▸ hi) hv']
  · rw [logicalBit_beyond (s := t) (by rw [hp]; omega), logicalBit_beyond (by omega)]

/-- The little-endian number of the reversed buffer is the big-endian number of the buffer. -/
theorem bufValue_reversed : bufValue .little t = bufValue .big s :=
  Nat.eq_of_testBit_eq fun i => by rw [testBit_bufValue, testBit_bufValue, logicalBit_reversed hs hp hrev]

/-- The two reads of R173 leave the same registers: the closed form sees the buffer only as a number, and a range fault
does not look at it. -/
theorem readCmd_reversed (ht : t.Inv) (hsr : s.Ready) (htr : t.Ready) (hrd : t.rdata = s.rdata) (w : Width)
    (a b : Bound) :
    ∃ v st, readCmd .big w a b s = .next { s with rdata := v, status := st } ∧
      readCmd .little w a b t = .next { t with rdata := v, status := st } := by
  rcases rangeAccepted_or_fault a b s.params.len with ha | ⟨c, hres⟩
  · have hstatus : t.status = s.status :=
      ((StatusLegal.ready_iff ht.statusLegal).1 htr).trans ((StatusLegal.ready_iff hs.statusLegal).1 hsr).symm
    have hclosed : closedField .little (widthBits w) a b t = closedField .big (widthBits w) a b s := by
      rw [closedField, closedField, bufValue_reversed hs hp hrev]
    refine ⟨some (closedField .big (widthBits w) a b s), s.status, readCmd_eq_closedField hs hsr ha, ?_⟩
    rw [readCmd_eq_closedField ht htr (hp ▸ ha), hclosed, ← hstatus]
    rfl
  · refine ⟨s.rdata, statusWord true c.code, readCmd_range_fault hs hsr hres, ?_⟩
    rw [readCmd_range_fault ht htr (hp ▸ hres), ← hrd]
    rfl

end Reversed

/-- Settles O21: the four pairs are the read engine in the two directionalities, at one width each. -/
theorem endiannessSymmetry : Obligations.EndiannessSymmetry := by
  intro s t a b hs ht hsr htr hp hrd hrev p hmem
  have hpair := fun w => readCmd_reversed hs hp hrev ht hsr htr hrd w a b
  simp only [List.mem_cons, List.not_mem_nil, or_false] at hmem
  rcases hmem with rfl | rfl | rfl | rfl
  · exact hpair .u8
  · exact hpair .u16
  · exact hpair .u32
  · exact hpair .u64

/-- Settles O22: an output at least as wide as the field cuts none of its bits. Bits beyond the buffer are 0 on both
sides, so the field's end inside the buffer is not needed. -/
theorem exactReads : Obligations.ExactReads := by
  intro i s hop hi hr ha _ hwide
  obtain ⟨v, hv, hbits⟩ := readCmd_accepted (e := i.shape.endian) (w := i.shape.width) hi hr ha
  refine ⟨v, (exec_read hop s).trans hv, fun j => ?_⟩
  rw [hbits]
  by_cases hj : (j : Int) < totalBits i.shape.start i.shape.stop
  · rw [if_pos hj, decide_eq_true (show j < widthBits i.shape.width by omega), decide_eq_true (by omega),
      Bool.true_and, Bool.true_and]
  · rw [if_neg hj, decide_eq_false (show ¬ j < (totalBits i.shape.start i.shape.stop).toNat by omega),
      Bool.false_and, Bool.and_false]

end Sys2Proof.Machine
end

section
/-! The write commands: the field that they replace, their effects and their frame, and the laws of a write together
with a 64-bit read (43_write.md R190 to R209). -/

namespace Sys2Proof.Machine

/-- A write command runs the write engine of its row (43_write.md R195 to R204). -/
theorem exec_write {i : Instr} (hop : i.shape.op = .write) (s : State) :
    exec i s = writeCmd i.shape.endian i.shape.width i.shape.start i.shape.stop i.shape.wdata s := by
  rw [exec_eq_runShape, runShape, hop]

/-- A range fault is taken by every command before any byte is touched (60_exceptions.md R237, 43_write.md R209). -/
theorem exec_range_fault {i : Instr} {s : State} {c : Cause} (hi : s.Inv) (hr : s.Ready)
    (hres : resolve i.shape.start i.shape.stop s.params.len = .error c) : exec i s = .next (raiseFault c s) :=
  (exec_eq_runShape i s).trans (runShape_fault hi.statusLegal hr hres)

/-- A 64-bit write cuts nothing of `WDATA` (30_encoding.md R98). -/
@[simp] theorem writeValue_u64 (ext : I32Ext) (v : Word64) : writeValue ext .u64 v = v := rfl

/-- An accepted write replaces the field by the value of its row, in either directionality (R205). -/
theorem writeCmd_fieldReplaced {e : Endian} {w : Width} {a b : Bound} {v : Word64} {s : State} (hi : s.Inv)
    (hr : s.Ready) (ha : RangeAccepted a b s.params.len) :
    ∃ m, writeCmd e w a b v s = .next (s.setBuf m) ∧
      FieldReplaced e a b (writtenValue s.params.i32Ext w v) s (s.setBuf m) := by
  obtain ⟨m, hm, hinv, hbits, hframe⟩ := writeCmd_accepted (e := e) (w := w) (v := v) hi hr ha
  refine ⟨m, hm, hinv, fun i hlt => ?bit, fun r hres => ?byte⟩
  case bit => rw [testBit_bufValue, testBit_bufValue, hbits i hlt, writeValue_eq_writtenValue]
  case byte =>
    obtain ⟨-, rfl⟩ := resolve_ok_inv hres
    exact hframe

/-- Settles O24: each of the ten is the write engine at its directionality and width. -/
theorem writesClosedForm : Obligations.WritesClosedForm := by
  intro s a b v hi hr ha
  have hwrite : ∀ e w, ∃ m, writeCmd e w a b v s = .next { s with buf := m } ∧
      FieldReplaced e a b (writtenValue s.params.i32Ext w v) s { s with buf := m } :=
    fun _ _ => writeCmd_fieldReplaced hi hr ha
  exact ⟨hwrite .little .u8, hwrite .little .u16, hwrite .little .u32, hwrite .little .u64, hwrite .little .i32,
    hwrite .big .u8, hwrite .big .u16, hwrite .big .u32, hwrite .big .u64, hwrite .big .i32⟩

/-- The machine with the other launch setting of `I32_EXT` (00_scope.md R9). -/
def State.withI32Ext (ext : I32Ext) (s : State) : State := { s with params := { s.params with i32Ext := ext } }

theorem State.Inv.withI32Ext {s : State} (hs : s.Inv) (ext : I32Ext) : (s.withI32Ext ext).Inv := hs

@[simp] theorem logicalBit_withI32Ext (e : Endian) (ext : I32Ext) (s : State) (i : Nat) :
    logicalBit e (s.withI32Ext ext) i = logicalBit e s i := rfl

/-- The two settings of `I32_EXT` differ only above bit 31, and there only for a negative value (30_encoding.md R98). -/
theorem getLsbD_writeValue_i32 (ext : I32Ext) {v : Word64} {j : Nat} (h : v.getLsbD 31 = false ∨ j < 32) :
    (writeValue ext .i32 v).getLsbD j = (writeValue .zero .i32 v).getLsbD j := by
  cases ext with
  | zero => rfl
  | sign =>
    have hmsb : (v.setWidth 32).msb = v.getLsbD 31 := by simp [BitVec.msb_eq_getLsbD_last]
    show ((v.setWidth 32).signExtend 64).getLsbD j = ((v.setWidth 32).setWidth 64).getLsbD j
    rw [BitVec.getLsbD_signExtend, hmsb, BitVec.getLsbD_setWidth 64]
    by_cases hj : j < 32
    · rw [if_pos hj]
    · have hpositive : v.getLsbD 31 = false := h.resolve_right hj
      rw [if_neg hj, hpositive, BitVec.getLsbD_of_ge _ _ (Nat.le_of_not_lt hj)]

/-- A signed write whose field sees no extension bit leaves one buffer under both settings of `I32_EXT` (R199): the
buffers have the same logical bits. -/
theorem writeCmd_i32_withI32Ext {e : Endian} {a b : Bound} {v : Word64} {s : State} (hi : s.Inv) (hr : s.Ready)
    (ha : RangeAccepted a b s.params.len) (hv : v.getLsbD 31 = false ∨ totalBits a b ≤ 32) :
    ∃ m, ∀ ext, writeCmd e .i32 a b v (s.withI32Ext ext) = .next ((s.withI32Ext ext).setBuf m) := by
  obtain ⟨m, -, hinv, hbits, -⟩ :=
    writeCmd_accepted (e := e) (w := .i32) (v := v) (s := s.withI32Ext .zero) (hi.withI32Ext _) hr ha
  refine ⟨m, fun ext => ?_⟩
  obtain ⟨m', hm', hinv', hbits', -⟩ :=
    writeCmd_accepted (e := e) (w := .i32) (v := v) (s := s.withI32Ext ext) (hi.withI32Ext _) hr ha
  have hsame : m' = m := buf_eq_of_bits (e := e) (s := s.setBuf m) (t := s.setBuf m') hinv hinv' rfl fun i hlt => by
    refine (hbits' i hlt).trans (Eq.trans ?_ (hbits i hlt).symm)
    by_cases hf : InField a b i
    · have hbit : v.getLsbD 31 = false ∨ i - (absStart a).toNat < 32 :=
        hv.imp_right fun h => by unfold totalBits at h; omega
      rw [if_pos hf, if_pos hf]
      exact getLsbD_writeValue_i32 ext hbit
    · rw [if_neg hf, if_neg hf, logicalBit_withI32Ext, logicalBit_withI32Ext]
  rw [hm', hsame]

/-- Settles O25: the two signed writes are the write engine in the two directionalities. -/
theorem signExtensionVisibleOnlyInWideNegative : Obligations.SignExtensionVisibleOnlyInWideNegative := by
  intro s a b v hi hr ha hv i hmem
  rcases List.mem_pair.1 hmem with rfl | rfl
  · exact writeCmd_i32_withI32Ext (e := .little) hi hr ha hv
  · exact writeCmd_i32_withI32Ext (e := .big) hi hr ha hv

/-- Settles O26, by the resolver's answer on a ready machine and by the acceptance check on a halted one. -/
theorem writeEffects : Obligations.WriteEffects := by
  intro i s hop hi
  refine ⟨fun hr r hres => ?completes, fun hr c hres => ?faults,
    fun hh => exec_not_accepted (acceptance_halted hi.statusLegal hh) i⟩
  case completes =>
    obtain ⟨m, hm, -, -, hframe⟩ := writeCmd_fieldReplaced (e := i.shape.endian) (w := i.shape.width)
      (v := i.shape.wdata) hi hr (resolve_ok_inv hres).1
    exact ⟨m, (exec_write hop s).trans hm, hframe r hres⟩
  case faults =>
    exact ⟨_, statusWord_of_resolve_error hres, exec_range_fault hi hr hres⟩

/-- A replaced field leaves every bit outside it, beyond the buffer too, where both numbers have zeros. -/
theorem FieldReplaced.testBit_outside {e : Endian} {a b : Bound} {value : Word64} {s : State} {m : Memory}
    (h : FieldReplaced e a b value s (s.setBuf m)) {j : Nat} (hj : ¬ InField a b j) :
    (bufValue e (s.setBuf m)).testBit j = (bufValue e s).testBit j := by
  obtain ⟨-, hbits, -⟩ := h
  by_cases hlt : j < 8 * s.params.len
  · rw [hbits j hlt, if_neg hj]
  · have hbeyond : 8 * s.params.len ≤ j := Nat.le_of_not_lt hlt
    rw [testBit_bufValue, testBit_bufValue, logicalBit_beyond (s := s.setBuf m) hbeyond, logicalBit_beyond hbeyond]

/-- Settles O27: a write whose range is accepted replaces the field, one whose range is not leaves `BUF`. -/
theorem writeNonInterference : Obligations.WriteNonInterference := by
  intro i s t hop hi h
  obtain ⟨hr, -⟩ := exec_inv h
  rcases rangeAccepted_or_fault i.shape.start i.shape.stop s.params.len with ha | ⟨c, hres⟩
  · obtain ⟨m, hm, hreplaced⟩ := writeCmd_fieldReplaced (e := i.shape.endian) (w := i.shape.width)
      (v := i.shape.wdata) hi hr ha
    cases h.symm.trans ((exec_write hop s).trans hm)
    refine ⟨fun j hj => hreplaced.testBit_outside hj, ?_⟩
    obtain ⟨-, -, hframe⟩ := hreplaced
    exact hframe
  · cases h.symm.trans (exec_range_fault hi hr hres)
    refine ⟨fun j _ => ?_, fun _ _ _ _ => rfl⟩
    rw [testBit_bufValue, testBit_bufValue]
    exact logicalBit_congr rfl fun _ => rfl

/-- The 64-bit write of what the 64-bit read answered finds the field holding it already (R206). A field bit beyond the
buffer was read as 0 and is not written. -/
theorem readCmd_then_writeCmd {e : Endian} {a b : Bound} {s : State} (hi : s.Inv) (hr : s.Ready)
    (ha : RangeAccepted a b s.params.len) :
    ∃ v, readCmd e .u64 a b s = .next (s.setRdata (some v)) ∧
      writeCmd e .u64 a b v (s.setRdata (some v)) = .next (s.setRdata (some v)) := by
  obtain ⟨v, hv, hread⟩ := readCmd_accepted (e := e) (w := .u64) hi hr ha
  have hi' : (s.setRdata (some v)).Inv := hi.setRdata _
  obtain ⟨m, hm, hinv, hwritten, -⟩ :=
    writeCmd_accepted (e := e) (w := .u64) (v := v) (s := s.setRdata (some v)) hi' hr ha
  have hsame : m = s.buf := buf_eq_of_bits (e := e) hi' hinv rfl fun i hlt => by
    rw [hwritten i hlt]
    by_cases hf : InField a b i
    · have h0 := absStart_nonneg a
      obtain ⟨-, hmax, -⟩ := ha
      obtain ⟨hstart, hend⟩ := hf
      have hinside : i - (absStart a).toNat < (totalBits a b).toNat := by unfold totalBits; omega
      have hwidth : i - (absStart a).toNat < widthBits .u64 := by simp only [widthBits]; omega
      have hplace : (absStart a).toNat + (i - (absStart a).toNat) = i := by omega
      rw [if_pos ⟨hstart, hend⟩, writeValue_u64, hread, decide_eq_true hwidth, decide_eq_true hinside, hplace]
      exact (logicalBit_congr (s := s) (t := s.setRdata (some v)) rfl fun _ => rfl).symm
    · rw [if_neg hf]
  refine ⟨v, hv, ?_⟩
  rw [hm, hsame]
  rfl

/-- Settles O28: the 64-bit commands of either directionality are its two engines. -/
theorem roundTrip : Obligations.RoundTrip := fun _ _ _ hi hr ha =>
  ⟨readCmd_then_writeCmd (e := .little) hi hr ha, readCmd_then_writeCmd (e := .big) hi hr ha⟩

/-- The mask of R208 is the word with `n` low ones. -/
theorem one_shiftLeft_sub_one (n : Nat) : (1#64 <<< n) - 1#64 = BitVec.ofNat 64 (2 ^ n - 1) := by
  have hpow : 1#64 <<< n = BitVec.ofNat 64 (2 ^ n) := BitVec.eq_of_toNat_eq (by simp [Nat.shiftLeft_eq])
  rw [hpow, BitVec.ofNat_sub_ofNat_of_le _ _ (by decide) (Nat.two_pow_pos n)]

/-- The 64-bit read after a 64-bit write answers the value cut to the field, where the buffer holds the whole field
(R208). -/
theorem writeCmd_then_readCmd {e : Endian} {a b : Bound} {v : Word64} {s : State} (hi : s.Inv) (hr : s.Ready)
    (ha : RangeAccepted a b s.params.len) (hin : absEnd b < 8 * (s.params.len : Int)) :
    ∃ m, writeCmd e .u64 a b v s = .next (s.setBuf m) ∧
      readCmd e .u64 a b (s.setBuf m) =
        .next ((s.setBuf m).setRdata (some (v &&& ((1#64 <<< (totalBits a b).toNat) - 1#64)))) := by
  obtain ⟨m, hm, hinv, hwritten, -⟩ := writeCmd_accepted (e := e) (w := .u64) (v := v) hi hr ha
  obtain ⟨u, hu, hread⟩ := readCmd_accepted (e := e) (w := .u64) (s := s.setBuf m) hinv hr ha
  have hcut : u = v &&& ((1#64 <<< (totalBits a b).toNat) - 1#64) := BitVec.eq_of_getLsbD_eq fun j hj => by
    rw [hread, one_shiftLeft_sub_one, BitVec.getLsbD_and, getLsbD_lowOnes _ hj,
      decide_eq_true (show j < widthBits .u64 from hj), Bool.true_and]
    by_cases hfield : j < (totalBits a b).toNat
    · have h0 := absStart_nonneg a
      have hf : InField a b ((absStart a).toNat + j) := by
        unfold totalBits at hfield
        exact ⟨by omega, by omega⟩
      have hlt : (absStart a).toNat + j < 8 * s.params.len := by
        obtain ⟨-, hend⟩ := hf
        omega
      rw [hwritten _ hlt, if_pos hf, writeValue_u64, Nat.add_sub_cancel_left, Bool.and_comm]
    · rw [decide_eq_false hfield, Bool.false_and, Bool.and_false]
  exact ⟨m, hm, hcut ▸ hu⟩

/-- Settles O29. A field of 64 bits is cut by nothing, so its width below 64 is not needed. -/
theorem truncationOnWrite : Obligations.TruncationOnWrite := fun _ _ _ _ hi hr ha hin _ =>
  ⟨writeCmd_then_readCmd (e := .little) hi hr ha hin, writeCmd_then_readCmd (e := .big) hi hr ha hin⟩

end Sys2Proof.Machine
end

section
/-! The faults that a range raises: the word that each leaves in `STATUS` (60_exceptions.md R230 to R237). -/

namespace Sys2Proof.Machine

/-- A command whose range the resolver turns down leaves the word of that cause in `STATUS`, and every other part of the
state as it was (R237). Of the invariant it needs the legal `STATUS` alone: the fault is taken before `BUF` is read. -/
theorem exec_records_range_fault {i : Instr} {s : State} {c : Cause} {word : BitVec 8} (hl : s.StatusLegal)
    (hr : s.Ready) (hres : resolve i.shape.start i.shape.stop s.params.len = .error c)
    (hword : statusWord true c.code = word) : exec i s = .next { s with status := word } := by
  subst hword
  exact (exec_eq_runShape i s).trans (runShape_fault hl hr hres)

/-- Settles O31: the resolver's condition for each cause, and the word of that cause. -/
theorem rangeFaultEntry : Obligations.RangeFaultEntry := by
  intro i s hl hr
  refine ⟨fun hwide => ?tooWide, fun hempty => ?empty, fun hmin hmax houtside => ?outside⟩
  case tooWide =>
    exact exec_records_range_fault hl hr (resolve_eq_fieldTooWide_iff.2 hwide) (statusWord_code .fieldTooWide)
  case empty =>
    exact exec_records_range_fault hl hr (resolve_eq_fieldEmpty_iff.2 hempty) (statusWord_code .fieldEmpty)
  case outside =>
    exact exec_records_range_fault hl hr (resolve_eq_rangeOutsideBuffer_iff.2 ⟨hmin, hmax, houtside⟩)
      (statusWord_code .rangeOutsideBuffer)

end Sys2Proof.Machine
end

section
/-! Reset, the launch, and how every command ends: completed, faulted, or refused over a byte that the host never defined
(70_reset_and_hazards.md R260, R262, R267). -/

namespace Sys2Proof.Machine

@[simp] theorem State.setRdata_faultBit (s : State) (v : Option Word64) : (s.setRdata v).faultBit = s.faultBit := rfl

@[simp] theorem State.setBuf_faultBit (s : State) (m : Memory) : (s.setBuf m).faultBit = s.faultBit := rfl

/-- A command whose range is accepted completes, and the machine can take the next one: neither engine touches
`STATUS`. -/
theorem exec_accepted_ready {i : Instr} {s : State} (hi : s.Inv) (hr : s.Ready)
    (ha : RangeAccepted i.shape.start i.shape.stop s.params.len) : ∃ t, exec i s = .next t ∧ t.Ready := by
  cases hop : i.shape.op with
  | read =>
    obtain ⟨v, hv, -⟩ := readCmd_accepted (e := i.shape.endian) (w := i.shape.width) hi hr ha
    exact ⟨_, (exec_read hop s).trans hv, (State.setRdata_faultBit s _).trans hr⟩
  | write =>
    obtain ⟨m, hm, -⟩ := writeCmd_accepted (e := i.shape.endian) (w := i.shape.width) (v := i.shape.wdata) hi hr ha
    exact ⟨_, (exec_write hop s).trans hm, (State.setBuf_faultBit s m).trans hr⟩

/-- Settles O33: the resolver's answer decides which of the two ends it is. -/
theorem everyCommandEnds : Obligations.EveryCommandEnds := by
  intro i s hi hr
  refine ⟨exec_accepted_ready hi hr, fun hna => ?_⟩
  obtain ⟨c, hres⟩ := (rangeAccepted_or_fault i.shape.start i.shape.stop s.params.len).resolve_left hna
  exact ⟨_, exec_range_fault hi hr hres, raiseFault_halted c s⟩

/-- Assembly that answers has read every byte of its span: none of them is passed over, and none invented. -/
theorem readLogical_of_assemble {e : Endian} {s : State} {start n : Nat} {acc : AccWord}
    (h : assemble e s start n = .ok acc) {j : Nat} (hj : j < n) : ∃ b, readLogical e s (start + j) = .ok b := by
  induction n generalizing acc with
  | zero => exact absurd hj (Nat.not_lt_zero j)
  | succ n ih =>
    rw [assemble] at h
    split at h
    · cases h
    · rename_i hinit
      split at h
      · cases h
      · rename_i hlast
        rcases Nat.lt_succ_iff_lt_or_eq.1 hj with hlt | rfl
        · exact ih hinit hlt
        · exact ⟨_, hlast⟩

/-- Assembly of a resolved span that holds an undefined byte is refused by that name (R262). -/
theorem assemble_undefined {e : Endian} {start stop : Bound} {s : State} {r : Span} {x : Nat}
    (hres : resolve start stop s.params.len = .ok r) (hspan : x ∈ spanIndices e s.params.len r)
    (hx : s.buf.read x = none) : assemble e s r.startByte r.size = .error (.refusal .undefinedByte) := by
  have hle := resolve_ok_end_le hres
  cases hassemble : assemble e s r.startByte r.size with
  | error why => rw [assemble_error hle hassemble]
  | ok acc =>
    obtain ⟨j, hj, rfl⟩ := mem_spanIndices.1 hspan
    obtain ⟨b, hb⟩ := readLogical_of_assemble hassemble hj
    rw [readLogical_of_lt (by omega)] at hb
    obtain ⟨-, hdefined⟩ := readByte_eq_ok.1 hb
    cases hx.symm.trans hdefined

/-- Either engine answers the stop of its assembly: a write too reads its whole span before it writes (R264). -/
theorem runShape_assemble_error {x : Shape} {s : State} {r : Span} {why : Stop} (hl : s.StatusLegal) (hr : s.Ready)
    (hres : resolve x.start x.stop s.params.len = .ok r)
    (h : assemble x.endian s r.startByte r.size = .error why) : runShape x s = why.outcome := by
  unfold runShape
  cases x.op with
  | read => simp only [readCmd, acceptance_ready hl hr, hres, h]
  | write => simp only [writeCmd, acceptance_ready hl hr, hres, h]

/-- Settles O38: the refusal of the assembly is the command's. -/
theorem undefinedByteRefused : Obligations.UndefinedByteRefused := by
  intro i s r x hl hr hres hspan hx
  exact (exec_eq_runShape i s).trans (runShape_assemble_error hl hr hres (assemble_undefined hres hspan hx))

/-- The host's bytes are the buffer of a launch, each at its own index. -/
theorem State.launch_read (bytes : List Byte) (idxW : Nat) (ext : I32Ext) (port : List PortEvent) (i : Nat) :
    (State.launch bytes idxW ext port).buf.read i = bytes[i]? :=
  Memory.read_ofBytes 0 bytes i

/-- A launch meets the invariant: `LEN` is the number of bytes that the host gave. -/
theorem State.launch_inv (bytes : List Byte) (idxW : Nat) (ext : I32Ext) (port : List PortEvent) :
    (State.launch bytes idxW ext port).Inv := by
  refine ⟨Memory.wf_ofBytes 0 bytes, fun c hc => ?bounded, fun i hi => ?defined, .inl rfl⟩
  case bounded =>
    obtain ⟨-, hlt⟩ := Memory.mem_ofBytes hc
    rwa [Nat.zero_add] at hlt
  case defined => rw [State.launch_read, List.getElem?_eq_getElem hi, Option.isSome_some]

theorem State.launch_ready (bytes : List Byte) (idxW : Nat) (ext : I32Ext) (port : List PortEvent) :
    (State.launch bytes idxW ext port).Ready :=
  (StatusLegal.ready_iff (.inl rfl)).2 rfl

/-- Settles O48: the registers are the launch's own, the buffer is the host's. -/
theorem launchProvidesBuffer : Obligations.LaunchProvidesBuffer := fun bytes idxW ext port =>
  ⟨State.launch_inv bytes idxW ext port, State.launch_ready bytes idxW ext port, rfl,
    State.launch_read bytes idxW ext port⟩

/-- A reset at the head of the port is taken in every state: no acceptance check stands before it. -/
theorem step_of_port_reset {s : State} {rest : List PortEvent} (h : s.port = .reset :: rest) :
    step s = .next (assertReset (s.setPort rest)) := by
  rw [step, portStep, h]

/-- Settles O43: an asserted reset writes the two registers and takes itself off the port. -/
theorem resetClearsRegistersKeepsBuffer : Obligations.ResetClearsRegistersKeepsBuffer := fun _ _ hport =>
  step_of_port_reset hport

end Sys2Proof.Machine
end
